-- ==== Sys2Proof/Word.lean ====
section
/-! DEFINITION. The one word of the machine: a byte.
Registers, memory cells, operands and addresses are all 8 bits and unsigned (10_state.md R23, 20_memory.md R50,
00_scope.md R8). -/

namespace Sys2Proof

/-- An unsigned 8-bit value (00_scope.md R8). -/
abbrev Byte := BitVec 8

end Sys2Proof
end

