-- ==== Sys2Proof/Machine/Alu.lean ====
section
/-! DEFINITION. What the ALU computes: the exact integer result first, then the narrowing to 8 bits
(10_state.md R23, 41 R110). No operation writes a flag (10_state.md R28). -/

namespace Sys2Proof.Machine

/-- `trunc8`: `v mod 256`, also for negative `v` (00_scope.md R9; the truncation of decision D4, log 9). -/
def trunc8 (v : Int) : Byte := BitVec.ofInt 8 v

/-- 41 R111. -/
def Alu.add (x y : Byte) : Byte := trunc8 ((x.toNat : Int) + y.toNat)

/-- 41 R112. -/
def Alu.sub (x y : Byte) : Byte := trunc8 ((x.toNat : Int) - y.toNat)

/-- 41 R113. -/
def Alu.mul (x y : Byte) : Byte := trunc8 ((x.toNat : Int) * y.toNat)

/-- 41 R114: the unsigned floor quotient (decision D5, log 10). DIV has checked the divisor before it calls this. -/
def Alu.div (x y : Byte) : Byte := BitVec.ofNat 8 (x.toNat / y.toNat)

/-- 41 R115. -/
def Alu.inc (x : Byte) : Byte := trunc8 ((x.toNat : Int) + 1)

/-- 41 R116. -/
def Alu.dec (x : Byte) : Byte := trunc8 ((x.toNat : Int) - 1)

/-- 43 R141. -/
def Alu.and (x y : Byte) : Byte := x &&& y

/-- 43 R142. -/
def Alu.or (x y : Byte) : Byte := x ||| y

/-- 43 R143. -/
def Alu.xor (x y : Byte) : Byte := x ^^^ y

/-- 43 R144: `not8 x = 255 - x`. -/
def Alu.not (x : Byte) : Byte := trunc8 (255 - (x.toNat : Int))

/-- 43 R145: the amount is the whole byte (decision D11, log 13). -/
def Alu.shl (x y : Byte) : Byte := trunc8 ((x.toNat : Int) * 2 ^ y.toNat)

/-- 43 R146: logical, the amount is the whole byte (decision D11, log 13). -/
def Alu.shr (x y : Byte) : Byte := BitVec.ofNat 8 (x.toNat / 2 ^ y.toNat)

end Sys2Proof.Machine
end

