-- ==== Sys2Proof/Config.lean ====
section
/-! DEFINITION. The implementation parameters of 00_scope.md R7 that fix the shape of the state and its reset.
Two more parameters stand under the same namespace in the files that use them: `Config.opcodeMap`
(OPCODE_MAP, Sys2Proof/Decode.lean) and `Config.flagBits` (FLAG_BITS, Sys2Proof/Machine/Flags.lean). -/

namespace Sys2Proof

/-- MEM_SIZE: the number of memory cells (10_state.md R33). -/
abbrev Config.memSize : Nat := 256

/-- NGPR: how many general registers a program may name (10_state.md R22).
DESIGN CHOICE (the spec's default of its parameter, decision D1; log 3). -/
abbrev Config.ngpr : Nat := 5

/-- SP_RESET: the stack pointer after reset, and the mark at or above which the stack is empty (10_state.md R26). -/
def Config.spReset : Byte := 0xF4

/-- FL_RESET: no flag set (10_state.md R27). -/
def Config.flReset : Byte := 0x00

/-- PC_RESET (10_state.md R25; the spec's decision D16, log 8). -/
def Config.pcReset : Byte := 0x00

/-- GPR_RESET: the general registers after reset (10_state.md R24).
DESIGN CHOICE (the spec's default of its parameter, decision D16; log 7). -/
def Config.gprReset : Byte := 0x00

/-- MEM_RESET: what a cell holds that neither the loader nor the core has written (10_state.md R34). -/
def Config.memReset : Byte := 0x00

/-- The three registers that live in reserved cells of the register file (10_state.md R20). -/
inductive ReservedReg where
  | pc | sp | fl
  deriving DecidableEq, Repr

/-- The six ways to lay `pc`, `sp`, `fl` out over cells 5, 6, 7, named by the register in cell 5, 6 and 7 in turn:
every bijection that the parameter RESERVED_CELL may be (10_state.md R21). -/
inductive ReservedLayout where
  | pcSpFl | pcFlSp | spPcFl | spFlPc | flPcSp | flSpPc
  deriving DecidableEq, Repr, Inhabited

/-- The cell of the register file that holds a reserved register under a layout (10_state.md R21). -/
def ReservedLayout.cellOf : ReservedLayout → ReservedReg → Nat
  | .pcSpFl, .pc => 5 | .pcSpFl, .sp => 6 | .pcSpFl, .fl => 7
  | .pcFlSp, .pc => 5 | .pcFlSp, .fl => 6 | .pcFlSp, .sp => 7
  | .spPcFl, .sp => 5 | .spPcFl, .pc => 6 | .spPcFl, .fl => 7
  | .spFlPc, .sp => 5 | .spFlPc, .fl => 6 | .spFlPc, .pc => 7
  | .flPcSp, .fl => 5 | .flPcSp, .pc => 6 | .flPcSp, .sp => 7
  | .flSpPc, .fl => 5 | .flSpPc, .sp => 6 | .flSpPc, .pc => 7

/-- RESERVED_CELL: open in the spec, so a constant with no body (10_state.md R21; log 4).
Only the host's eight-cell view of the register file reads it. -/
opaque Config.reservedLayout : ReservedLayout

end Sys2Proof
end

