-- ==== Sys2Proof/Machine/State.lean ====
section
/-! DEFINITION. The state of the machine: everything 10_state.md lists, and nothing else (10_state.md R32). -/

namespace Sys2Proof.Machine

/-- The dispatcher's state machine (10_state.md R29). -/
inductive RunState where
  /-- RUNNING: the core takes steps. -/
  | running
  /-- HALTED: terminal, entered by HLT. -/
  | halted
  /-- FAULTED: terminal, entered by any `raise`. -/
  | faulted
  deriving DecidableEq, Repr

/-- The error record a `raise` surfaces: the fault kind with the information recorded for it (60_exceptions.md R180). -/
inductive FaultRecord where
  /-- DecodeFault: the opcode byte and its address (R181). -/
  | decodeFault (op pc : Byte)
  /-- AluDispatchFault: kept so that the six codes are all there; nothing raises it (R182; log 26). -/
  | aluDispatchFault
  /-- DivideByZeroFault: the address of the DIV (R183). -/
  | divideByZeroFault (pc : Byte)
  /-- MemBoundsFault: the offending address as an integer, and the address of the instruction (R184). -/
  | memBoundsFault (address : Int) (pc : Byte)
  /-- RegIndexFault: the offending operand byte and the address of the instruction (R185). -/
  | regIndexFault (value pc : Byte)
  /-- StackUnderflowFault: the address of the instruction and the value of `sp` (R186). -/
  | stackUnderflowFault (pc sp : Byte)
  deriving DecidableEq, Repr

/-- The fault's code (60_exceptions.md R180; the spec's own numbering, decision D15, log 15). -/
def FaultRecord.code : FaultRecord → Nat
  | .decodeFault _ _ => 1
  | .aluDispatchFault => 2
  | .divideByZeroFault _ => 3
  | .memBoundsFault _ _ => 4
  | .regIndexFault _ _ => 5
  | .stackUnderflowFault _ _ => 6

/-- Memory: the cells that differ from their reset value, by strictly rising address; a cell not listed holds
`Config.memReset` (10_state.md R33, R34; log 24). `Memory.wf` in Machine/Ops.lean is this form. -/
abbrev Memory := List Host.Cell

/-- The machine's state (10_state.md, summary table). -/
structure State where
  /-- The general registers R0 to R4 (R22). -/
  x : Vector Byte Config.ngpr
  /-- The program counter (R25). -/
  pc : Byte
  /-- The stack pointer (R26). -/
  sp : Byte
  /-- The flags byte (R27). -/
  fl : Byte
  /-- The run state (R29). -/
  run : RunState
  /-- The error record (R30). -/
  err : Option FaultRecord
  /-- The values printed since reset, oldest first (R31). -/
  out : List Byte
  /-- The 256 memory cells (R33). -/
  mem : Memory
  deriving DecidableEq, Repr

/-- The state right after reset, before the loader acts (70_reset_and_hazards.md R201; logs 7, 8). -/
def State.reset : State where
  x := Vector.replicate Config.ngpr Config.gprReset
  pc := Config.pcReset
  sp := Config.spReset
  fl := Config.flReset
  run := .running
  err := none
  out := []
  mem := []

/-- Why the machine is stuck. The six faults of the spec are not here: taking one is a step (60_exceptions.md R188),
to a state with `run` = FAULTED (log 1). -/
inductive Fault where
  /-- Raised by `step` alone, when `run` = HALTED: in that state there is no step (40 R90). Safe: the model stops where
  the machine does (log 2). -/
  | stepWhileHalted
  /-- Raised by `step` alone, when `run` = FAULTED: in that state there is no step (40 R90). Safe: the model stops where
  the machine does (log 2). -/
  | stepWhileFaulted
  deriving DecidableEq, Repr

/-- Why an instruction has no meaning in the model. -/
inductive Refusal where
  /-- Raised by an arm of `exec` whose instruction has no meaning yet. Safe: nothing can be proved of it. No arm raises
  it in this model: all 23 instructions have their meaning. -/
  | notModelled (mnemonic : String)
  deriving DecidableEq, Repr

/-- What a meaning answers. -/
abbrev Result := Host.Outcome State Fault Refusal

end Sys2Proof.Machine
end

