-- ==== Sys2Proof/Machine/Ops.lean ====
section
/-! DEFINITION. The named operations over memory and registers, taking a fault, and completing a step.
Every read and write of state by a meaning goes through these. -/

namespace Sys2Proof.Machine

/-! ## Memory (20_memory.md) -/

/-- MemRead(addr, 1) (20_memory.md R51). -/
def Memory.read : Memory → Nat → Byte
  | [], _ => Config.memReset
  | (b, v) :: rest, a => if b = a then v else Memory.read rest a

/-- A cell in front of a memory whose addresses are all higher, left out when it holds the reset value. -/
def Memory.consCell (a : Nat) (v : Byte) (rest : Memory) : Memory :=
  if v = Config.memReset then rest else (a, v) :: rest

/-- MemWrite(addr, 1, v) (20_memory.md R51), keeping the canonical form. -/
def Memory.write : Memory → Nat → Byte → Memory
  | [], a, v => Memory.consCell a v []
  | (b, w) :: rest, a, v =>
    if a < b then Memory.consCell a v ((b, w) :: rest)
    else if a = b then Memory.consCell a v rest
    else (b, w) :: Memory.write rest a v

/-- The canonical form from address `lo` upward: addresses strictly rising and inside memory, no cell equal to what an
unlisted address reads as. -/
def Memory.wfFrom : Nat → Memory → Bool
  | _, [] => true
  | lo, (a, v) :: rest =>
    decide (lo ≤ a) && decide (a < Config.memSize) && decide (v ≠ Config.memReset) && Memory.wfFrom (a + 1) rest

/-- The canonical form of a memory (10_state.md R33; log 24). -/
def Memory.wf (m : Memory) : Bool := Memory.wfFrom 0 m

/-- The cell `M[a]`; an address taken from a byte is always in range (20_memory.md R50). -/
def State.readByte (s : State) (a : Byte) : Byte := s.mem.read a.toNat

/-- `M[a] <- v`, and nothing else (20_memory.md R51). -/
def State.writeByte (s : State) (a v : Byte) : State := { s with mem := s.mem.write a.toNat v }

/-! ## Registers and the rest of the state (10_state.md) -/

/-- `x[i]` (10_state.md R22). -/
def State.reg (s : State) (i : Fin Config.ngpr) : Byte := s.x[i]

/-- `x[i] <- v` (10_state.md R22). -/
def State.setReg (s : State) (i : Fin Config.ngpr) (v : Byte) : State := { s with x := s.x.set i v }

/-- `pc <- v` (10_state.md R25). -/
def State.setPc (s : State) (v : Byte) : State := { s with pc := v }

/-- `sp <- v` (10_state.md R26). -/
def State.setSp (s : State) (v : Byte) : State := { s with sp := v }

/-- `fl <- v`, the whole byte (10_state.md R28). -/
def State.setFl (s : State) (v : Byte) : State := { s with fl := v }

/-- `run <- HALTED` (40 R100). -/
def State.halt (s : State) : State := { s with run := .halted }

/-- `out.append(v)` (10_state.md R31). -/
def State.print (s : State) (v : Byte) : State := { s with out := s.out ++ [v] }

/-! ## Taking a fault

There is no return from a fault and no handler (60_exceptions.md R190): only reset leaves FAULTED. -/

/-- `raise <Kind>(info)`: `run <- FAULTED`, `err <- (Kind, info)`, and nothing else is written, so `pc` stays at the
faulting instruction (60_exceptions.md R188). -/
def State.raise (s : State) (e : FaultRecord) : State := { s with run := .faulted, err := some e }

/-- End a step: the checks and the commit of an instruction give either its next state or the first check that
failed, and a failed check is taken as a fault (40 R94, R95). -/
def complete (s : State) : Except FaultRecord State → Result
  | .ok t => .next t
  | .error e => .next (s.raise e)

/-! ## Addresses the core computes (20_memory.md R53) -/

/-- The sequential successor `pc + L`, or MemBoundsFault when it is past address 255 (40 R94 (3)). -/
def successor (len : Nat) (s : State) : Except FaultRecord Byte :=
  if s.pc.toNat + len < Config.memSize then .ok (BitVec.ofNat 8 (s.pc.toNat + len))
  else .error (.memBoundsFault ((s.pc.toNat + len : Nat) : Int) s.pc)

/-- The push address `sp - 1`, or MemBoundsFault with address -1 when `sp` = 0 (44 R161, R163). -/
def pushAddress (s : State) : Except FaultRecord Byte :=
  if 1 ≤ s.sp.toNat then .ok (BitVec.ofNat 8 (s.sp.toNat - 1))
  else .error (.memBoundsFault ((s.sp.toNat : Int) - 1) s.pc)

/-- The pop address `sp`, or StackUnderflowFault when the stack is empty (44 R162, R164). -/
def popAddress (s : State) : Except FaultRecord Byte :=
  if s.sp.toNat < Config.spReset.toNat then .ok s.sp
  else .error (.stackUnderflowFault s.pc s.sp)

/-! ## The stack (44_control_stack_call.md R160) -/

/-- Push: `sp` becomes the push address and the byte is written there. -/
def State.pushAt (s : State) (addr v : Byte) : State := (s.setSp addr).writeByte addr v

/-- Pop: `sp` moves one up from the pop address; memory is not changed. -/
def State.popAt (s : State) (addr : Byte) : State := s.setSp (BitVec.ofNat 8 (addr.toNat + 1))

end Sys2Proof.Machine
end

