-- ==== Sys2Proof/Machine/Operands.lean ====
section
/-! DEFINITION. The operand forms of 30_encoding.md R71: a register index as a whole byte, and the two shapes the ALU
instructions have, read-modify-write on the left register (41 R110, 43 R140). -/

namespace Sys2Proof.Machine

/-- A register-index operand: the general register it names, or RegIndexFault with the byte (30_encoding.md R74).
The byte is not masked. -/
def regOperand (v : Byte) (s : State) : Except FaultRecord (Fin Config.ngpr) :=
  if h : v.toNat < Config.ngpr then .ok ⟨v.toNat, h⟩ else .error (.regIndexFault v s.pc)

/-- Format RR: `x[a] <- f x[a] x[b]`, then `pc <- pc + 3`. Both operands are read before the write (41 R110). -/
def binaryForm (f : Byte → Byte → Byte) (a b : Byte) (s : State) : Except FaultRecord State := do
  let i ← regOperand a s
  let j ← regOperand b s
  let next ← successor 3 s
  return (s.setReg i (f (s.reg i) (s.reg j))).setPc next

/-- Format R of INC, DEC and NOT: `x[a] <- f x[a]`, then `pc <- pc + 2`. -/
def unaryForm (f : Byte → Byte) (a : Byte) (s : State) : Except FaultRecord State := do
  let i ← regOperand a s
  let next ← successor 2 s
  return (s.setReg i (f (s.reg i))).setPc next

end Sys2Proof.Machine
end

