-- ==== Sys2Proof/Machine/Arithmetic.lean ====
section
/-! DEFINITION. ADD, SUB, MUL, DIV, INC and DEC (41_alu_arithmetic.md R111 to R116). -/

namespace Sys2Proof.Machine

/-- R111. -/
def execAdd (a b : Byte) (s : State) : Result := complete s (binaryForm Alu.add a b s)

/-- R112. -/
def execSub (a b : Byte) (s : State) : Result := complete s (binaryForm Alu.sub a b s)

/-- R113. -/
def execMul (a b : Byte) (s : State) : Result := complete s (binaryForm Alu.mul a b s)

/-- The divisor check of DIV: DivideByZeroFault when it is 0 (R114, 60_exceptions.md R183). -/
def nonzeroDivisor (divisor : Byte) (s : State) : Except FaultRecord Unit :=
  if divisor = 0 then .error (.divideByZeroFault s.pc) else .ok ()

/-- R114: the divisor is checked after the register indices and before the successor (60_exceptions.md R187). -/
def execDiv (a b : Byte) (s : State) : Result :=
  complete s do
    let i ← regOperand a s
    let j ← regOperand b s
    nonzeroDivisor (s.reg j) s
    let next ← successor 3 s
    return (s.setReg i (Alu.div (s.reg i) (s.reg j))).setPc next

/-- R115. -/
def execInc (a : Byte) (s : State) : Result := complete s (unaryForm Alu.inc a s)

/-- R116. -/
def execDec (a : Byte) (s : State) : Result := complete s (unaryForm Alu.dec a s)

end Sys2Proof.Machine
end

