-- ==== Sys2Proof/Machine/Bitwise.lean ====
section
/-! DEFINITION. AND, OR, XOR, NOT, SHL and SHR (43_alu_bitwise.md R141 to R146), with the register-indirect operands of
R140 (decision D6, log 11). -/

namespace Sys2Proof.Machine

/-- R141. -/
def execAnd (a b : Byte) (s : State) : Result := complete s (binaryForm Alu.and a b s)

/-- R142. -/
def execOr (a b : Byte) (s : State) : Result := complete s (binaryForm Alu.or a b s)

/-- R143. -/
def execXor (a b : Byte) (s : State) : Result := complete s (binaryForm Alu.xor a b s)

/-- R144: one operand, two bytes (decision D7, log 12). -/
def execNot (a : Byte) (s : State) : Result := complete s (unaryForm Alu.not a s)

/-- R145. -/
def execShl (a b : Byte) (s : State) : Result := complete s (binaryForm Alu.shl a b s)

/-- R146. -/
def execShr (a b : Byte) (s : State) : Result := complete s (binaryForm Alu.shr a b s)

end Sys2Proof.Machine
end

