-- ==== Sys2Proof/Machine/Flags.lean ====
section
/-! DEFINITION. The flags byte: its three states, the one computation that makes them (CMP, 42 R130) and the one test
that reads them (JEQ and JNE, 42 R131, R132). -/

namespace Sys2Proof

/-- FLAG_BITS: the byte `fl` holds after a compare whose left operand is equal to, greater than or less than the right
one (10_state.md R27). PRESUMED (the spec takes the positions from general knowledge, decision D9; log 6). -/
def Config.flagBits : Ordering → Byte
  | .eq => 0x01
  | .gt => 0x02
  | .lt => 0x04

namespace Machine

/-- CMP's whole flags byte: the comparison of two unsigned values (42 R130; decision D10, log 25). -/
def compareFlags (x y : Byte) : Byte :=
  if x = y then Config.flagBits .eq
  else if x.toNat < y.toNat then Config.flagBits .lt
  else Config.flagBits .gt

/-- Whether `fl` equals the Equal state (10_state.md R28). -/
def State.flagEqual (s : State) : Bool := decide (s.fl = Config.flagBits .eq)

end Machine

end Sys2Proof
end

