-- ==== Sys2Proof/Machine/CompareBranch.lean ====
section
/-! DEFINITION. CMP, JEQ and JNE (42_alu_compare_branch.md R130 to R132). -/

namespace Sys2Proof.Machine

/-- `fl <-` the comparison of `x[a]` with `x[b]`; `pc <- pc + 3` (R130). -/
def execCmp (a b : Byte) (s : State) : Result :=
  complete s do
    let i ← regOperand a s
    let j ← regOperand b s
    let next ← successor 3 s
    return (s.setFl (compareFlags (s.reg i) (s.reg j))).setPc next

/-- A conditional jump of two bytes: to `x[a]` when taken, else to the successor, which is needed only then
(40 R94 (3), R96). The register index is checked either way (R131). -/
def branchForm (taken : Bool) (a : Byte) (s : State) : Except FaultRecord State := do
  let i ← regOperand a s
  if taken then
    return s.setPc (s.reg i)
  else
    let next ← successor 2 s
    return s.setPc next

/-- R131: taken when `fl` is Equal. -/
def execJeq (a : Byte) (s : State) : Result := complete s (branchForm s.flagEqual a s)

/-- R132: taken when `fl` is not Equal. -/
def execJne (a : Byte) (s : State) : Result := complete s (branchForm (!s.flagEqual) a s)

end Sys2Proof.Machine
end

