-- ==== Sys2Proof/Machine/Control.lean ====
section
/-! DEFINITION. PUSH, POP, CALL, RET and JMP (44_control_stack_call.md R161 to R165). Every value a rule reads is the
value at the start of the step (40 R95). -/

namespace Sys2Proof.Machine

/-- `sp <- sp - 1; M[sp] <- x[a]`; `pc <- pc + 2` (R161). -/
def execPush (a : Byte) (s : State) : Result :=
  complete s do
    let i ← regOperand a s
    let addr ← pushAddress s
    let next ← successor 2 s
    return (s.pushAt addr (s.reg i)).setPc next

/-- `x[a] <- M[sp]; sp <- sp + 1`; `pc <- pc + 2` (R162). -/
def execPop (a : Byte) (s : State) : Result :=
  complete s do
    let i ← regOperand a s
    let addr ← popAddress s
    let next ← successor 2 s
    return ((s.popAt addr).setReg i (s.readByte addr)).setPc next

/-- Push the return address `pc + 2`, then `pc <- x[a]` (R163). -/
def execCall (a : Byte) (s : State) : Result :=
  complete s do
    let i ← regOperand a s
    let addr ← pushAddress s
    let returnAddress ← successor 2 s
    return (s.pushAt addr returnAddress).setPc (s.reg i)

/-- `pc <- M[sp]; sp <- sp + 1` (R164). -/
def execRet (s : State) : Result :=
  complete s do
    let addr ← popAddress s
    return (s.popAt addr).setPc (s.readByte addr)

/-- `pc <- x[a]` (R165). -/
def execJmp (a : Byte) (s : State) : Result :=
  complete s do
    let i ← regOperand a s
    return s.setPc (s.reg i)

end Sys2Proof.Machine
end

