-- ==== Sys2Proof/Machine/LoadPrintHalt.lean ====
section
/-! DEFINITION. LDI, PRN and HLT (40_fetch_decode_ldi_prn_hlt.md R98 to R100). -/

namespace Sys2Proof.Machine

/-- `x[a] <- imm`; `pc <- pc + 3` (R98). -/
def execLdi (a imm : Byte) (s : State) : Result :=
  complete s do
    let i ← regOperand a s
    let next ← successor 3 s
    return (s.setReg i imm).setPc next

/-- `out.append(x[a])`; `pc <- pc + 2` (R99). -/
def execPrn (a : Byte) (s : State) : Result :=
  complete s do
    let i ← regOperand a s
    let next ← successor 2 s
    return (s.print (s.reg i)).setPc next

/-- `run <- HALTED`; `pc <- pc + 1` (R100; decision D17, log 16). -/
def execHlt (s : State) : Result :=
  complete s do
    let next ← successor 1 s
    return s.halt.setPc next

end Sys2Proof.Machine
end

