-- ==== Sys2Proof/Syntax.lean ====
section
/-! DEFINITION. The 23 instructions of 30_encoding.md R76, one constructor each.
An operand is the whole operand byte (30_encoding.md R74): `a` and `b` are register indices, `imm` is LDI's
immediate (R75). A byte that names no register is kept, because it is the instruction that faults on it (R74);
`Instr.wellFormed` says which operands name registers. -/

namespace Sys2Proof

/-- The instruction set (30_encoding.md R76), in the table's order. -/
inductive Instr where
  | hlt
  | ret
  | push (a : Byte)
  | pop (a : Byte)
  | prn (a : Byte)
  | call (a : Byte)
  | jmp (a : Byte)
  | jeq (a : Byte)
  | jne (a : Byte)
  | inc (a : Byte)
  | dec (a : Byte)
  | not (a : Byte)
  | ldi (a imm : Byte)
  | add (a b : Byte)
  | sub (a b : Byte)
  | mul (a b : Byte)
  | div (a b : Byte)
  | cmp (a b : Byte)
  | and (a b : Byte)
  | or (a b : Byte)
  | xor (a b : Byte)
  | shl (a b : Byte)
  | shr (a b : Byte)
  deriving DecidableEq, Repr

end Sys2Proof
end

