-- ==== Sys2Proof/WellFormed.lean ====
section
/-! DEFINITION. Which instructions are well formed: every register operand names one of R0..R4
(30_encoding.md R74, R79). An immediate is well formed at every value (R79). -/

namespace Sys2Proof

/-- The register-index operands of an instruction, in the order they are checked: `a`, then `b`
(30_encoding.md R71, R74; 60_exceptions.md R187). LDI's immediate is not one of them (R75). -/
def Instr.regOperands : Instr → List Byte
  | .hlt | .ret => []
  | .push a | .pop a | .prn a | .call a | .jmp a | .jeq a | .jne a => [a]
  | .inc a | .dec a | .not a => [a]
  | .ldi a _ => [a]
  | .add a b | .sub a b | .mul a b | .div a b | .cmp a b => [a, b]
  | .and a b | .or a b | .xor a b | .shl a b | .shr a b => [a, b]

/-- A byte that names a general register: the whole byte, not masked (30_encoding.md R74). -/
def namesRegister (v : Byte) : Bool := decide (v.toNat < Config.ngpr)

/-- Every register operand names a general register (30_encoding.md R79). -/
def Instr.wellFormed (i : Instr) : Bool := i.regOperands.all namesRegister

end Sys2Proof
end

