-- ==== Sys2Proof/Decode.lean ====
section
/-! DEFINITION. The opcode table of 30_encoding.md, the decoder and the encoder.
Decoding is a flat lookup of the whole opcode byte (R76, R77); the opcode alone fixes the length (R73); operand
bytes follow in ascending order (20_memory.md R54). Both directions take the opcode map as an argument, because
the spec makes it a parameter (R76), and the machine uses the default `Config.opcodeMap`. -/

namespace Sys2Proof

/-- The 23 mnemonics of the opcode table (30_encoding.md R76). -/
inductive Mnemonic where
  | hlt | ret | push | pop | prn | call | jmp | jeq | jne | inc | dec | not | ldi
  | add | sub | mul | div | cmp | and | or | xor | shl | shr
  deriving DecidableEq, Repr

/-- Every row of the opcode table, in its order. -/
def Mnemonic.all : List Mnemonic :=
  [.hlt, .ret, .push, .pop, .prn, .call, .jmp, .jeq, .jne, .inc, .dec, .not] ++
  [.ldi, .add, .sub, .mul, .div, .cmp, .and, .or, .xor, .shl, .shr]

/-- OPCODE_MAP: the opcode byte of each mnemonic (30_encoding.md R76).
PRESUMED (the spec takes the values from general knowledge of the family, decision D8; log 5). -/
def Config.opcodeMap : Mnemonic → Byte
  | .hlt => 0x01
  | .ret => 0x11
  | .push => 0x45
  | .pop => 0x46
  | .prn => 0x47
  | .call => 0x50
  | .jmp => 0x54
  | .jeq => 0x55
  | .jne => 0x56
  | .inc => 0x65
  | .dec => 0x66
  | .not => 0x69
  | .ldi => 0x82
  | .add => 0xA0
  | .sub => 0xA1
  | .mul => 0xA2
  | .div => 0xA3
  | .cmp => 0xA7
  | .and => 0xA8
  | .or => 0xAA
  | .xor => 0xAB
  | .shl => 0xAC
  | .shr => 0xAD

/-- `nops`: how many operand bytes follow the opcode (30_encoding.md R72, R76). -/
def Mnemonic.nops : Mnemonic → Nat
  | .hlt | .ret => 0
  | .push | .pop | .prn | .call | .jmp | .jeq | .jne | .inc | .dec | .not => 1
  | .ldi | .add | .sub | .mul | .div | .cmp | .and | .or | .xor | .shl | .shr => 2

/-- `L`: the instruction length in bytes (30_encoding.md R70, R73). -/
def Mnemonic.length (m : Mnemonic) : Nat := 1 + m.nops

/-- `owns_pc`: the handler sets `pc` itself (30_encoding.md R72). -/
def Mnemonic.ownsPc : Mnemonic → Bool
  | .jmp | .jeq | .jne | .call | .ret => true
  | .hlt | .push | .pop | .prn | .inc | .dec | .not | .ldi => false
  | .add | .sub | .mul | .div | .cmp | .and | .or | .xor | .shl | .shr => false

/-- The row of the opcode table an instruction belongs to. -/
def Instr.mnemonic : Instr → Mnemonic
  | .hlt => .hlt
  | .ret => .ret
  | .push _ => .push
  | .pop _ => .pop
  | .prn _ => .prn
  | .call _ => .call
  | .jmp _ => .jmp
  | .jeq _ => .jeq
  | .jne _ => .jne
  | .inc _ => .inc
  | .dec _ => .dec
  | .not _ => .not
  | .ldi _ _ => .ldi
  | .add _ _ => .add
  | .sub _ _ => .sub
  | .mul _ _ => .mul
  | .div _ _ => .div
  | .cmp _ _ => .cmp
  | .and _ _ => .and
  | .or _ _ => .or
  | .xor _ _ => .xor
  | .shl _ _ => .shl
  | .shr _ _ => .shr

/-- Why bytes do not decode. -/
inductive DecodeError where
  /-- The opcode byte has no row in the table (30_encoding.md R78). -/
  | unknownOpcode (op : Byte)
  /-- Byte `k` of the instruction is not there: the bytes end before it (30_encoding.md R80). -/
  | missingByte (k : Nat)
  deriving DecidableEq, Repr

/-- The flat table lookup, keyed by the full byte (30_encoding.md R76). -/
def lookupWith (map : Mnemonic → Byte) (op : Byte) : Option Mnemonic :=
  Mnemonic.all.find? fun m => map m == op

/-- The lookup of the machine's own table. -/
def lookup (op : Byte) : Option Mnemonic := lookupWith Config.opcodeMap op

/-- Read the one operand byte of format R. -/
def oneOperand (make : Byte → Instr) : List Byte → Except DecodeError (Instr × List Byte)
  | a :: rest => .ok (make a, rest)
  | [] => .error (.missingByte 1)

/-- Read the two operand bytes of formats RR and RI, in ascending order. -/
def twoOperands (make : Byte → Byte → Instr) : List Byte → Except DecodeError (Instr × List Byte)
  | a :: b :: rest => .ok (make a b, rest)
  | [_] => .error (.missingByte 2)
  | [] => .error (.missingByte 1)

/-- The operands of each row (30_encoding.md R71). -/
def decodeOperands (m : Mnemonic) (bytes : List Byte) : Except DecodeError (Instr × List Byte) :=
  match m with
  | .hlt => .ok (.hlt, bytes)
  | .ret => .ok (.ret, bytes)
  | .push => oneOperand .push bytes
  | .pop => oneOperand .pop bytes
  | .prn => oneOperand .prn bytes
  | .call => oneOperand .call bytes
  | .jmp => oneOperand .jmp bytes
  | .jeq => oneOperand .jeq bytes
  | .jne => oneOperand .jne bytes
  | .inc => oneOperand .inc bytes
  | .dec => oneOperand .dec bytes
  | .not => oneOperand .not bytes
  | .ldi => twoOperands .ldi bytes
  | .add => twoOperands .add bytes
  | .sub => twoOperands .sub bytes
  | .mul => twoOperands .mul bytes
  | .div => twoOperands .div bytes
  | .cmp => twoOperands .cmp bytes
  | .and => twoOperands .and bytes
  | .or => twoOperands .or bytes
  | .xor => twoOperands .xor bytes
  | .shl => twoOperands .shl bytes
  | .shr => twoOperands .shr bytes

/-- The decoder over any opcode map: the instruction at the head of the bytes and the bytes after it, or the reason
there is none. The opcode is looked up before any operand byte is wanted (30_encoding.md R80). -/
def decodeWith (map : Mnemonic → Byte) : List Byte → Except DecodeError (Instr × List Byte)
  | [] => .error (.missingByte 0)
  | op :: rest =>
    match lookupWith map op with
    | none => .error (.unknownOpcode op)
    | some m => decodeOperands m rest

/-- The machine's decoder. -/
def decode (bytes : List Byte) : Except DecodeError (Instr × List Byte) := decodeWith Config.opcodeMap bytes

/-- The operand bytes of an instruction, in ascending address order (30_encoding.md R71). -/
def Instr.operandBytes : Instr → List Byte
  | .hlt | .ret => []
  | .push a | .pop a | .prn a | .call a | .jmp a | .jeq a | .jne a => [a]
  | .inc a | .dec a | .not a => [a]
  | .ldi a imm => [a, imm]
  | .add a b | .sub a b | .mul a b | .div a b | .cmp a b => [a, b]
  | .and a b | .or a b | .xor a b | .shl a b | .shr a b => [a, b]

/-- The encoder over any opcode map: the opcode byte, then the operand bytes (30_encoding.md R71). -/
def encodeWith (map : Mnemonic → Byte) (i : Instr) : List Byte := map i.mnemonic :: i.operandBytes

/-- The machine's encoder. -/
def encode (i : Instr) : List Byte := encodeWith Config.opcodeMap i

/-- The longest instruction has 3 bytes (30_encoding.md R70). -/
def maxLength : Nat := 3

/-- The first `n` bytes of a number, least significant first: the opcode table numbers the bits of an instruction
from the least significant bit of its first byte, and bytes ascend in memory (20_memory.md R54). -/
def bytesOfNat : Nat → Nat → List Byte
  | 0, _ => []
  | n + 1, w => BitVec.ofNat 8 w :: bytesOfNat n (w / 256)

/-- The bytes of an instruction given as a number of `nbits` bits, every bit above them 0, padded to the longest
instruction. -/
def instrBytes (nbits w : Nat) : List Byte := bytesOfNat maxLength (w % 2 ^ nbits)

/-- The instruction the decoder reads from such a number. -/
def decodeTableWord (nbits w : Nat) : Option Instr :=
  match decode (instrBytes nbits w) with
  | .ok (i, _) => some i
  | .error _ => none

end Sys2Proof
end

