-- ==== Sys2Proof/Machine/Fetch.lean ====
section
/-! DEFINITION. Fetching and decoding the instruction at `pc` (40 R91 to R93), and storing bytes where the next fetch
reads them. A fetch is an ordinary read of the one memory, made afresh at every step (20_memory.md R61). -/

namespace Sys2Proof.Machine

/-- At most `n` bytes from address `a` upward: the bytes at addresses past 255 do not exist and are not wrapped
(20_memory.md R53). -/
def State.bytesFrom (s : State) (a : Nat) : Nat → List Byte
  | 0 => []
  | n + 1 => if a < Config.memSize then s.mem.read a :: s.bytesFrom (a + 1) n else []

/-- How many bytes the instruction with this opcode byte has; an unknown opcode byte stands alone
(30_encoding.md R73, R78). -/
def fetchLength (op : Byte) : Nat :=
  match lookup op with
  | some m => m.length
  | none => 1

/-- The opcode byte and as many operand bytes as it calls for, so far as they exist (20_memory.md R52). -/
def State.fetchBytes (s : State) : List Byte := s.bytesFrom s.pc.toNat (fetchLength (s.readByte s.pc))

/-- The fault of bytes that do not decode: DecodeFault for an unknown opcode (40 R92), MemBoundsFault for an operand
byte past address 255 (40 R93). -/
def fetchFault (s : State) : DecodeError → FaultRecord
  | .unknownOpcode op => .decodeFault op s.pc
  | .missingByte k => .memBoundsFault ((s.pc.toNat + k : Nat) : Int) s.pc

/-- The instruction at `pc`, or the fault its fetch raises. -/
def State.fetch (s : State) : Except FaultRecord Instr :=
  match decode s.fetchBytes with
  | .ok (i, _) => .ok i
  | .error e => .error (fetchFault s e)

/-- Store bytes from address `a` upward, so far as the addresses exist. -/
def State.storeBytes (s : State) (a : Nat) : List Byte → State
  | [] => s
  | v :: rest =>
    if a < Config.memSize then State.storeBytes { s with mem := s.mem.write a v } (a + 1) rest else s

end Sys2Proof.Machine
end

