-- ==== Sys2Proof/Machine/Step.lean ====
section
/-! DEFINITION. One step of the core (40_fetch_decode_ldi_prn_hlt.md R90, R101). -/

namespace Sys2Proof.Machine

/-- Fetch, decode, execute. A fault of the fetch is taken like any other (60_exceptions.md R188). In the states HALTED
and FAULTED there is no step (R90; log 2). -/
def step (s : State) : Host.Outcome State Fault Refusal :=
  match s.run with
  | .running =>
    match s.fetch with
    | .ok i => exec i s
    | .error e => .next (s.raise e)
  | .halted => .fault .stepWhileHalted
  | .faulted => .fault .stepWhileFaulted

/-- `s` with an instruction of `nbits` bits stored at `pc`, where `step` fetches next: it stands for the load of that
instruction (70_reset_and_hazards.md R203; log 19). Nothing but memory changes. -/
def State.withFetchWord (s : State) (nbits w : Nat) : State := s.storeBytes s.pc.toNat (instrBytes nbits w)

end Sys2Proof.Machine
end

