-- ==== Sys2Proof/Machine/HostView.lean ====
section
/-! DEFINITION. What the host observes (70_reset_and_hazards.md R207, R208). These are views of the state: they change
nothing, and no step reads them. -/

namespace Sys2Proof.Machine

/-- The output the host prints: one line per PRN value, its decimal numeral with no sign, leading zero or padding
(40 R99). The line terminator is the host's (log 17). -/
def State.outputLines (s : State) : List String := s.out.map fun v => toString v.toNat

/-- Which reserved register a cell of the register file holds under a layout, if any (10_state.md R21). -/
def ReservedLayout.regAt (l : ReservedLayout) (cell : Nat) : Option ReservedReg :=
  [ReservedReg.pc, ReservedReg.sp, ReservedReg.fl].find? fun r => l.cellOf r == cell

/-- The value of a reserved register. -/
def State.reserved (s : State) : ReservedReg → Byte
  | .pc => s.pc
  | .sp => s.sp
  | .fl => s.fl

/-- One cell of the eight-cell register file under a layout: a general register, or the reserved register that lives
there; there is no other cell (10_state.md R20, R21). -/
def State.fileCell (s : State) (l : ReservedLayout) (cell : Nat) : Option Byte :=
  if h : cell < Config.ngpr then some (s.reg ⟨cell, h⟩) else (ReservedLayout.regAt l cell).map s.reserved

/-- The register file as the host reads it: cells 0 to 7 in index order, under the machine's own layout
(70_reset_and_hazards.md R208). -/
def State.registerFile (s : State) : List (Option Byte) := (List.range 8).map (s.fileCell Config.reservedLayout)

/-- The whole of memory, `M[0]` to `M[255]` (70_reset_and_hazards.md R208). -/
def State.memoryImage (s : State) : List Byte := (List.range Config.memSize).map s.mem.read

/-- The run state and, when the core has faulted, its error (70_reset_and_hazards.md R207). -/
def State.status (s : State) : RunState × Option FaultRecord := (s.run, s.err)

/-- How a run has ended, if it has (70_reset_and_hazards.md R208): HALTED is the successful end, FAULTED the abnormal
one, and the two are kept apart (60_exceptions.md R189). -/
inductive RunEnd where
  | successful
  | abnormal (code : Option Nat)
  deriving DecidableEq, Repr

/-- The end of the run that a state stands for; none while RUNNING. -/
def State.runEnd (s : State) : Option RunEnd :=
  match s.run with
  | .running => none
  | .halted => some .successful
  | .faulted => some (.abnormal (s.err.map FaultRecord.code))

end Sys2Proof.Machine
end

