-- ==== Sys2Proof/Machine/Load.lean ====
section
/-! DEFINITION. Reset and the program load (70_reset_and_hazards.md R200 to R205): what has happened before the first
step. The loader itself is outside the core (00_scope.md R4). -/

namespace Sys2Proof.Machine

/-- Why the launch of a program is refused. -/
inductive LoadError where
  /-- The stream has more than 256 bytes (R205; decision D22, log 19). -/
  | programTooLong
  deriving DecidableEq, Repr

/-- The host's reset: the whole state takes its reset values, from any state (R200). -/
def hostReset (_before : State) : State := State.reset

/-- The launch state of a program: byte `i` of the stream in `M[i]`, the rest as after reset; a stream that does not
fit is refused (R203, R205). -/
def launch (program : List Byte) : Except LoadError State :=
  if program.length ≤ Config.memSize then .ok (State.reset.storeBytes 0 program) else .error .programTooLong

end Sys2Proof.Machine
end

