-- ==== Sys2Proof/Machine/Run.lean ====
section
/-! DEFINITION. Runs of the core: under fuel (the host's step budget, 70_reset_and_hazards.md R207), and as a relation. -/

namespace Sys2Proof.Machine

/-- At most `n` steps, stopping where the core takes none: the host may cut a run between two steps, and a cut changes
no state (R207; decision D30, log 20). -/
def runFuel : Nat → State → State
  | 0, s => s
  | n + 1, s =>
    match step s with
    | .next t => runFuel n t
    | .fault _ => s
    | .refused _ => s

/-- `Steps P s t`: the core goes from `s` to `t` by steps, each taken from a state that satisfies `P`. -/
inductive Steps (P : State → Prop) : State → State → Prop where
  | refl (s : State) : Steps P s s
  | step {s t u : State} (holds : P s) (taken : Machine.step s = .next t) (rest : Steps P t u) : Steps P s u

/-- `StepsIn n s t`: the core goes from `s` to `t` by exactly `n` steps. -/
inductive StepsIn : Nat → State → State → Prop where
  | zero (s : State) : StepsIn 0 s s
  | succ {n : Nat} {s t u : State} (taken : Machine.step s = .next t) (rest : StepsIn n t u) : StepsIn (n + 1) s u

/-- The row of the opcode table the byte at `pc` selects: the instruction the next step executes (40 R92). -/
def State.nextMnemonic (s : State) : Option Mnemonic := lookup (s.readByte s.pc)

end Sys2Proof.Machine
end

