-- ==== Sys2Proof/Safety.lean ====
section
/-! DEFINITION. What holds of every state a run reaches (10_state.md R36), and what counts as a safe run. -/

namespace Sys2Proof

open Machine

/-- The invariant of 10_state.md R36 (b), (c), (d), with the canonical form of memory and the unreachable
AluDispatchFault of 60_exceptions.md R182. R36 (a) is the type of a byte; R36 (e) is about two states. -/
structure Inv (s : State) : Prop where
  memory : s.mem.wf = true
  stack : s.sp.toNat ≤ 0xF4
  flags : s.fl = 0x00 ∨ s.fl = 0x01 ∨ s.fl = 0x02 ∨ s.fl = 0x04
  error : s.err = none ↔ s.run ≠ RunState.faulted
  dispatch : s.err ≠ some FaultRecord.aluDispatchFault

/-- The successful end of a run: HALTED, never FAULTED (60_exceptions.md R189). -/
def SuccessfulEnd (s : State) : Prop := s.run = RunState.halted

/-- A safe run goes by steps of the core to a successful end. -/
def SafeRun (s t : State) : Prop := Steps (fun _ => True) s t ∧ SuccessfulEnd t

end Sys2Proof
end

