-- ==== Sys2Proof/Certificates/Slice0/Obligations.lean ====
section
/-! DEFINITION. The statements for the provers, each `def Obligations.<Name> : Prop`.
Where a statement rests on a decision the spec marks as its own (92_eei_decisions.md D<n>), its docstring says so. -/

namespace Sys2Proof.Claims

open Sys2Proof.Machine

/-! ## What the statements share -/

/-- The frame of an instruction that writes one general register and `pc`: the named register and `pc` may change, and
every other register, the stack pointer, the flags, the run state, the error record, the output and every byte of
memory are as before. -/
def OnlyRegisterChanges (a : Byte) (s t : State) : Prop :=
  (∀ r : Fin Config.ngpr, r.val ≠ a.toNat → t.reg r = s.reg r) ∧
    t.sp = s.sp ∧ t.fl = s.fl ∧ t.run = s.run ∧ t.err = s.err ∧ t.out = s.out ∧
    ∀ m : Byte, t.readByte m = s.readByte m

/-- The frame of an instruction that writes no general register, no memory, no output and neither `run` nor `err`:
`pc`, `sp` and `fl` are left to the statement. -/
def RegistersMemoryOutputKept (s t : State) : Prop :=
  (∀ r : Fin Config.ngpr, t.reg r = s.reg r) ∧ t.run = s.run ∧ t.err = s.err ∧ t.out = s.out ∧
    ∀ m : Byte, t.readByte m = s.readByte m

/-- The bytes of memory from `pc` to address 255. -/
def bytesToTheTop (s : State) : List Byte :=
  (List.range (256 - s.pc.toNat)).map fun k => s.readByte (BitVec.ofNat 8 (s.pc.toNat + k))

/-- The register an instruction writes (10_state.md, the table after R24), as its operand byte. -/
def destination : Instr → Option Byte
  | .ldi a _ | .add a _ | .sub a _ | .mul a _ | .div a _ | .and a _ | .or a _ | .xor a _ | .shl a _ | .shr a _ => some a
  | .inc a | .dec a | .not a | .pop a => some a
  | .prn _ | .cmp _ _ | .jmp _ | .jeq _ | .jne _ | .call _ | .push _ | .hlt | .ret => none

/-- The value of the register a byte names; 0 where it names none. -/
def valueOf (s : State) (a : Byte) : Byte := if h : a.toNat < 5 then s.reg ⟨a.toNat, h⟩ else 0

/-- The check an instruction makes of its own (40 R94 (2)): DIV wants a divisor, POP and RET a value on the stack, PUSH
and CALL room below it. -/
def OwnCheckPasses : Instr → State → Prop
  | .div _ b, s => valueOf s b ≠ 0
  | .pop _, s | .ret, s => s.sp.toNat < 0xF4
  | .push _, s | .call _, s => 1 ≤ s.sp.toNat
  | .hlt, _ | .prn _, _ | .jmp _, _ | .jeq _, _ | .jne _, _ | .inc _, _ | .dec _, _ | .not _, _ => True
  | .ldi _ _, _ | .add _ _, _ | .sub _ _, _ | .mul _ _, _ | .cmp _ _, _ | .and _ _, _ | .or _ _, _ => True
  | .xor _ _, _ | .shl _ _, _ | .shr _ _, _ => True

/-- Whether an instruction needs the address after it (40 R94 (3)): all but JMP, RET and a taken JEQ or JNE. -/
def UsesSuccessor : Instr → State → Prop
  | .jmp _, _ | .ret, _ => False
  | .jeq _, s => s.fl ≠ 0x01
  | .jne _, s => s.fl = 0x01
  | .hlt, _ | .push _, _ | .pop _, _ | .prn _, _ | .call _, _ | .inc _, _ | .dec _, _ | .not _, _ => True
  | .ldi _ _, _ | .add _ _, _ | .sub _ _, _ | .mul _ _, _ | .div _ _, _ | .cmp _ _, _ | .and _ _, _ => True
  | .or _ _, _ | .xor _ _, _ | .shl _ _, _ | .shr _ _, _ => True

end Sys2Proof.Claims

open Sys2Proof Sys2Proof.Machine Sys2Proof.Claims

/-! ## Encoding (30_encoding.md) -/

/-- Decoding an encoded instruction gives it back, with every operand byte, whatever bytes follow, for EVERY injective
opcode map: the semantics does not depend on the byte values, which are the spec's parameter (R76, decision D8). -/
def Obligations.DecodeInvertsEncodeForEveryInjectiveMap : Prop :=
  ∀ map : Mnemonic → Byte, Function.Injective map →
    ∀ (i : Instr) (rest : List Byte), decodeWith map (encodeWith map i ++ rest) = .ok (i, rest)

/-- The same of the machine's own opcode map, the default of OPCODE_MAP (R76, decision D8, log 5). -/
def Obligations.DecodeInvertsEncode : Prop :=
  ∀ (i : Instr) (rest : List Byte), decode (encode i ++ rest) = .ok (i, rest)

/-- Each byte sequence has at most one reading: what decodes to an instruction is the encoding of that instruction,
followed by the bytes left over. -/
def Obligations.DecodedBytesAreTheEncoding : Prop :=
  ∀ (bytes rest : List Byte) (i : Instr), decode bytes = .ok (i, rest) → bytes = encode i ++ rest

/-- Words written out from the table of R76, one of each format and family, decode to the instruction they stand for
(the byte values are the spec's decision D8, log 5). -/
def Obligations.TableWordsDecode : Prop :=
  decode [0b00000001] = .ok (.hlt, []) ∧
  decode [0b00010001] = .ok (.ret, []) ∧
  decode [0b01000101, 0b00000010] = .ok (.push 2, []) ∧
  decode [0b01010101, 0b00000100] = .ok (.jeq 4, []) ∧
  decode [0b10000010, 0b00000001, 0b11111111] = .ok (.ldi 1 0xFF, []) ∧
  decode [0b10100001, 0b00000011, 0b00000000] = .ok (.sub 3 0, []) ∧
  decode [0b10101101, 0b00000000, 0b00000010] = .ok (.shr 0 2, [])

/-- An opcode byte is refused exactly when it is not one of the 23 of the sorted legal set of R78 (decision D8, D21). -/
def Obligations.ExactlyTheUnlistedOpcodesAreIllegal : Prop :=
  ∀ (op : Byte) (rest : List Byte), decode (op :: rest) = .error (.unknownOpcode op) ↔
    op ∉ ([0x01, 0x11, 0x45, 0x46, 0x47, 0x50, 0x54, 0x55, 0x56, 0x65, 0x66, 0x69, 0x82, 0xA0, 0xA1, 0xA2, 0xA3, 0xA7,
      0xA8, 0xAA, 0xAB, 0xAC, 0xAD] : List Byte)

/-- The byte values carry the family's metadata (R77, general knowledge, log 5): bits 7:6 are the operand count, bit 5
is the thirteen ALU instructions, bit 4 is `owns_pc`. -/
def Obligations.OpcodeBytesCarryTheMetadata : Prop :=
  ∀ m : Mnemonic, (Config.opcodeMap m).toNat / 64 = m.nops ∧
    ((Config.opcodeMap m).getLsbD 4 = m.ownsPc) ∧
    ((Config.opcodeMap m).getLsbD 5 = true ↔
      m ∈ [Mnemonic.add, .sub, .mul, .div, .inc, .dec, .cmp, .and, .or, .xor, .not, .shl, .shr])

/-! ## The step (40_fetch_decode_ldi_prn_hlt.md) -/

/-- A step runs the decoded instruction: when the bytes at `pc` decode to `i`, the step of a running core is `exec i` on
the same state. Nothing is added around `exec`: an instruction moves `pc` itself. -/
def Obligations.StepRunsTheDecodedInstruction : Prop :=
  ∀ (s : State) (i : Instr) (rest : List Byte), s.run = .running → decode (bytesToTheTop s) = .ok (i, rest) →
    step s = exec i s

/-- R92: the whole opcode byte is looked up in the table; a hit gives the row, with its operand count and length; a miss
takes DecodeFault with the byte and its address and nothing else is done; and decoding looks at no state but `pc` and
memory. Stated over the table by name, so it rests on no byte value. -/
def Obligations.OpcodeByteIsLookedUpWhole : Prop :=
  (∀ m : Mnemonic, lookup (Config.opcodeMap m) = some m ∧ m.nops ≤ 2 ∧ m.length = 1 + m.nops ∧
    (m.ownsPc = true ↔ m ∈ [Mnemonic.jmp, .jeq, .jne, .call, .ret])) ∧
  (∀ s : State, s.run = .running → (∀ m, Config.opcodeMap m ≠ s.readByte s.pc) →
    step s = .next { s with run := .faulted, err := some (.decodeFault (s.readByte s.pc) s.pc) }) ∧
  (∀ s t : State, s.pc = t.pc → (∀ a : Byte, s.readByte a = t.readByte a) → s.fetch = t.fetch)

/-- An operand byte past address 255 is a MemBoundsFault with address 256, before the operand's value matters (R93, R80;
decisions D12, D27, logs 14, 21). -/
def Obligations.OperandByteBeyondMemoryFaults : Prop :=
  ∀ (s : State) (m : Mnemonic), s.run = .running → lookup (s.readByte s.pc) = some m → 255 < s.pc.toNat + m.nops →
    step s = .next { s with run := .faulted, err := some (.memBoundsFault 256 s.pc) }

/-- R190: nothing follows a fault. A faulted core takes no step, so every run from it stays where it is, its error record
included, and only reset leaves FAULTED. -/
def Obligations.NothingFollowsAFault : Prop :=
  ∀ s : State, s.run = .faulted → (∀ t, step s ≠ .next t) ∧
    (∀ (P : State → Prop) (t : State), Steps P s t → t = s) ∧ (hostReset s).run = .running

/-- A halted core takes no step either (R29, R90; decision D26). The stop answered has the model's own name in each of
the two terminal states (log 2). -/
def Obligations.TerminalStatesTakeNoStep : Prop :=
  ∀ s : State, (s.run = .halted → step s = .fault .stepWhileHalted) ∧
    (s.run = .faulted → step s = .fault .stepWhileFaulted) ∧
    (s.run ≠ .running → ∀ (P : State → Prop) (t : State), Steps P s t → t = s)

/-- A running core can always step: the step function is total and never stuck (R102, R209). -/
def Obligations.RunningCoreAlwaysSteps : Prop :=
  ∀ s : State, s.run = .running → ∃ t, step s = .next t

/-- Faults are precise: a step that ends FAULTED has changed `run` and `err` only, so `pc` is at the faulting instruction
(R102, 60 R188; decision D14, log 15). -/
def Obligations.FaultingStepChangesOnlyRunAndError : Prop :=
  ∀ s t : State, s.run = .running → step s = .next t → t.run = .faulted →
    ∃ e, t = { s with run := .faulted, err := some e } ∧ e ≠ .aluDispatchFault

/-- A step that does not fault and does not own `pc` moves `pc` by the length of its row (R95, R102). -/
def Obligations.CompletedStepAdvancesPc : Prop :=
  ∀ (s t : State) (m : Mnemonic), s.run = .running → step s = .next t → t.run ≠ .faulted →
    s.nextMnemonic = some m → m.ownsPc = false → t.pc.toNat = s.pc.toNat + m.length

/-- The loop ends when a step executes HLT or takes a fault, and in no other way; and some state of the machine steps to
itself, so it never ends (R97). -/
def Obligations.RunEndsOnlyByHltOrFault : Prop :=
  (∀ s t : State, s.run = .running → step s = .next t →
    (t.run = .halted ↔ (s.nextMnemonic = some .hlt ∧ t.run ≠ .faulted)) ∧
    (t.run = .faulted → ∃ e, t.err = some e) ∧
    (s.nextMnemonic ≠ some .hlt → t.run ≠ .faulted → t.run = .running)) ∧
  ∃ s : State, Inv s ∧ s.run = .running ∧ ∀ n, runFuel n s = s

/-- Running under fuel follows the steps of the core, and stops only when the fuel is spent or the run has ended (R97,
70 R207; decision D30, log 20): the steps taken are at most the fuel, and exactly the fuel while the result is still
RUNNING; a core that can step does so as soon as there is fuel; and once the run has ended more fuel changes nothing. -/
def Obligations.FuelledRunFollowsTheSteps : Prop :=
  ∀ (n : Nat) (s : State), Steps (fun _ => True) s (runFuel n s) ∧
    (∃ k, k ≤ n ∧ StepsIn k s (runFuel n s) ∧ ((runFuel n s).run = .running → k = n)) ∧
    (∀ t, step s = .next t → runFuel (n + 1) s = runFuel n t) ∧
    ((runFuel n s).run ≠ .running → ∀ k, runFuel (n + k) s = runFuel n s)

/-! ## The invariant (10_state.md R36) -/

/-- The invariant holds right after reset. -/
def Obligations.InvariantHoldsAtReset : Prop := Inv State.reset

/-- Every step keeps the invariant, from every state that has it: memory in canonical form, `sp` at most 0xF4, `fl` one of
0x00, 0x01, 0x02, 0x04, `err` none exactly when not FAULTED, no AluDispatchFault (R36, 60 R182; decisions D9, D13). -/
def Obligations.InvariantKeptByEveryStep : Prop :=
  ∀ s t : State, Inv s → step s = .next t → Inv t

/-- `out` only grows: one value at the end for a PRN that completes, and nothing for any other instruction (R31, R36 (e);
decision D18, log 17). -/
def Obligations.OutputOnlyGrowsByPrn : Prop :=
  ∀ (i : Instr) (s t : State), exec i s = .next t →
    t.out = s.out ∨ ∃ (a : Byte) (h : a.toNat < 5), i = .prn a ∧ t.out = s.out ++ [s.reg ⟨a.toNat, h⟩]

/-- R30: the error record is none after reset; along a step it stays none exactly while the core is not FAULTED; once
written it is never cleared or overwritten, because no step follows; and no instruction reads it. -/
def Obligations.ErrorRecordIsWrittenOnce : Prop :=
  State.reset.err = none ∧
  (∀ s t : State, s.run = .running → s.err = none → step s = .next t → (t.err = none ↔ t.run ≠ .faulted)) ∧
  (∀ (P : State → Prop) (s t : State), s.run = .faulted → Steps P s t → t.err = s.err) ∧
  (∀ (i : Instr) (s t : State) (e : Option FaultRecord), exec i s = .next t →
    ∃ u, exec i { s with err := e } = .next u ∧ { u with err := none } = { t with err := none })

/-! ## Frames over every instruction -/

/-- R28: only CMP writes `fl`, and it writes the whole byte; only JEQ and JNE read `fl`, and they read only whether it
equals the Equal state. -/
def Obligations.OnlyCmpWritesFlagsOnlyBranchesReadThem : Prop :=
  (∀ (i : Instr) (s t : State), exec i s = .next t → (∀ a b, i ≠ .cmp a b) → t.fl = s.fl) ∧
  (∀ (a b : Byte) (s t : State) (v : Byte), exec (.cmp a b) s = .next t → t.run ≠ .faulted →
    exec (.cmp a b) { s with fl := v } = .next t) ∧
  (∀ (i : Instr) (s t : State) (v : Byte), exec i s = .next t → (∀ a, i ≠ .jeq a) → (∀ a, i ≠ .jne a) →
    ∃ u, exec i { s with fl := v } = .next u ∧ { u with fl := 0 } = { t with fl := 0 }) ∧
  (∀ (i : Instr) (a : Byte) (s t : State) (v : Byte), (i = .jeq a ∨ i = .jne a) → exec i s = .next t →
    (v = Config.flagBits .eq ↔ s.fl = Config.flagBits .eq) →
    ∃ u, exec i { s with fl := v } = .next u ∧ { u with fl := 0 } = { t with fl := 0 })

/-- R133: from one compare to the next `fl` keeps its value, through any number of other instructions. -/
def Obligations.FlagsPersistUntilTheNextCompare : Prop :=
  ∀ s t : State, Steps (fun u => u.nextMnemonic ≠ some .cmp) s t → t.fl = s.fl

/-- The branch property (42 R134): after a compare that completed and any run with no compare in it, JEQ takes its jump
exactly when the two registers were equal WHEN THE COMPARE EXECUTED, and JNE exactly when they were not. An untaken jump
needs its successor, so it completes up to `pc` = 253 (decision D12). -/
def Obligations.BranchTestsTheMostRecentCompare : Prop :=
  ∀ (s c t : State) (a b d : Byte) (ha : a.toNat < 5) (hb : b.toNat < 5) (hd : d.toNat < 5),
    s.pc.toNat ≤ 252 → exec (.cmp a b) s = .next c → Steps (fun u => u.nextMnemonic ≠ some .cmp) c t →
    (s.reg ⟨a.toNat, ha⟩ = s.reg ⟨b.toNat, hb⟩ →
      exec (.jeq d) t = .next { t with pc := t.reg ⟨d.toNat, hd⟩ } ∧
      (t.pc.toNat ≤ 253 → exec (.jne d) t = .next { t with pc := t.pc + 2 })) ∧
    (s.reg ⟨a.toNat, ha⟩ ≠ s.reg ⟨b.toNat, hb⟩ →
      exec (.jne d) t = .next { t with pc := t.reg ⟨d.toNat, hd⟩ } ∧
      (t.pc.toNat ≤ 253 → exec (.jeq d) t = .next { t with pc := t.pc + 2 }))

/-- Who moves `sp`, and how far: PUSH and CALL one down, POP and RET one up, nothing else (10 R26, 44 R160). -/
def Obligations.StackPointerMovesByOne : Prop :=
  ∀ (i : Instr) (s t : State), exec i s = .next t →
    t.sp = s.sp ∨
    (((∃ a, i = .push a) ∨ ∃ a, i = .call a) ∧ 1 ≤ s.sp.toNat ∧ t.sp.toNat = s.sp.toNat - 1) ∨
    (((∃ a, i = .pop a) ∨ i = .ret) ∧ s.sp.toNat < 0xF4 ∧ t.sp.toNat = s.sp.toNat + 1)

/-- Who writes memory, and where: an instruction that is not PUSH or CALL leaves every byte as it was, and those two leave
every byte as it was but the one at the push address, the address the meaning stores to (20 R52, 10 R33). -/
def Obligations.MemoryChangesOnlyAtThePushAddress : Prop :=
  ∀ (i : Instr) (s t : State), s.mem.wf = true → exec i s = .next t →
    ((∀ a, i ≠ .push a) → (∀ a, i ≠ .call a) → ∀ m : Byte, t.readByte m = s.readByte m) ∧
    ∀ m : Byte, pushAddress s ≠ .ok m → t.readByte m = s.readByte m

/-- Which general register an instruction writes: its destination in the table of 10_state.md, and no other. -/
def Obligations.OnlyTheDestinationRegisterChanges : Prop :=
  ∀ (i : Instr) (s t : State), exec i s = .next t →
    ∀ r : Fin Config.ngpr, destination i ≠ some (BitVec.ofNat 8 r.val) → t.reg r = s.reg r

/-! ## Faults of an instruction, in their order (60_exceptions.md R187) -/

/-- Exactly when an instruction completes: its register operands name registers, its own check passes, and the address
after it exists if it needs that address (40 R94; decisions D3, D12, D13, D14). -/
def Obligations.InstructionCompletesExactlyWhenItsChecksPass : Prop :=
  ∀ (i : Instr) (s : State), s.run = .running →
    ((∃ t, exec i s = .next t ∧ t.run ≠ .faulted) ↔
      (i.wellFormed = true ∧ OwnCheckPasses i s ∧ (UsesSuccessor i s → s.pc.toNat + i.mnemonic.length ≤ 255)))

/-- The first register operand that names no register is a RegIndexFault, whatever else would fail (30 R74, 60 R185;
decision D3, log 14). -/
def Obligations.RegisterIndexFaultComesFirst : Prop :=
  ∀ (i : Instr) (s : State) (v : Byte), i.regOperands.find? (fun w => decide (5 ≤ w.toNat)) = some v →
    exec i s = .next { s with run := .faulted, err := some (.regIndexFault v s.pc) }

/-- R183: DIV with a divisor register that holds 0 takes DivideByZeroFault with the address of the DIV; DIV alone raises
it; and overflow, underflow and a shift by 8 or more are not errors. -/
def Obligations.DivideByZeroIsRaisedByDivAlone : Prop :=
  (∀ (s : State) (a b : Byte) (_ : a.toNat < 5) (hb : b.toNat < 5), s.reg ⟨b.toNat, hb⟩ = 0 →
    exec (.div a b) s = .next { s with run := .faulted, err := some (.divideByZeroFault s.pc) }) ∧
  (∀ (i : Instr) (s t : State) (p : Byte), exec i s = .next t → t.err = some (.divideByZeroFault p) →
    t.err = s.err ∨ ∃ a b, i = .div a b ∧ valueOf s b = 0 ∧ p = s.pc) ∧
  (∀ (i : Instr) (s : State) (a b : Byte), a.toNat < 5 → b.toNat < 5 → s.pc.toNat ≤ 252 →
    i ∈ [Instr.add a b, .sub a b, .mul a b, .inc a, .dec a, .and a b, .or a b, .xor a b, .not a, .shl a b, .shr a b] →
    ∃ t, exec i s = .next t ∧ t.run = s.run ∧ t.err = s.err)

/-- POP and RET on an empty stack take StackUnderflowFault, before the successor is looked at (60 R186; decision D13,
log 14). -/
def Obligations.PopOfAnEmptyStackFaults : Prop :=
  ∀ (s : State), 0xF4 ≤ s.sp.toNat →
    (∀ a : Byte, a.toNat < 5 →
      exec (.pop a) s = .next { s with run := .faulted, err := some (.stackUnderflowFault s.pc s.sp) }) ∧
    exec .ret s = .next { s with run := .faulted, err := some (.stackUnderflowFault s.pc s.sp) }

/-- PUSH and CALL at `sp` = 0 take MemBoundsFault with address -1, before the successor is looked at: the push address
neither wraps nor clamps (60 R184, 44 R161, R163; decision D12, log 14). -/
def Obligations.PushBelowAddressZeroFaults : Prop :=
  ∀ (s : State) (a : Byte), s.sp = 0 → a.toNat < 5 →
    exec (.push a) s = .next { s with run := .faulted, err := some (.memBoundsFault (-1) s.pc) } ∧
    exec (.call a) s = .next { s with run := .faulted, err := some (.memBoundsFault (-1) s.pc) }

/-- Last, a successor past address 255 is a MemBoundsFault with that address, for exactly the instructions that need it
(40 R94 (3), 60 R187 (5); decision D12, log 14). -/
def Obligations.SuccessorBeyondMemoryFaults : Prop :=
  ∀ (i : Instr) (s : State), i.wellFormed = true → OwnCheckPasses i s → UsesSuccessor i s →
    255 < s.pc.toNat + i.mnemonic.length →
    exec i s = .next { s with run := .faulted,
                              err := some (.memBoundsFault ((s.pc.toNat + i.mnemonic.length : Nat) : Int) s.pc) }

/-! ## Results (40 R98 to R100, 41, 42, 43, 44), each with its frame

Where the address after an instruction is needed, the instruction completes while it exists (decision D12). -/

/-- LDI (40 R98; the order of its operand bytes is decision D19, log 18). -/
def Obligations.LdiLoadsItsImmediate : Prop :=
  ∀ (s : State) (a imm : Byte) (ha : a.toNat < 5), s.pc.toNat ≤ 252 →
    ∃ t, exec (.ldi a imm) s = .next t ∧ t.reg ⟨a.toNat, ha⟩ = imm ∧ t.pc.toNat = s.pc.toNat + 3 ∧
      OnlyRegisterChanges a s t

/-- PRN (40 R99; decision D18, log 17). -/
def Obligations.PrnAppendsTheRegister : Prop :=
  ∀ (s : State) (a : Byte) (ha : a.toNat < 5), s.pc.toNat ≤ 253 →
    ∃ t, exec (.prn a) s = .next t ∧ t.out = s.out ++ [s.reg ⟨a.toNat, ha⟩] ∧ t.pc.toNat = s.pc.toNat + 2 ∧
      (∀ r : Fin Config.ngpr, t.reg r = s.reg r) ∧ t.sp = s.sp ∧ t.fl = s.fl ∧ t.run = s.run ∧ t.err = s.err ∧
      ∀ m : Byte, t.readByte m = s.readByte m

/-- HLT (40 R100): `run` is HALTED and `pc` has moved by 1 (decision D17, log 16). -/
def Obligations.HltHaltsAndAdvances : Prop :=
  ∀ s : State, s.pc.toNat ≤ 254 →
    ∃ t, exec .hlt s = .next t ∧ t.run = .halted ∧ t.pc.toNat = s.pc.toNat + 1 ∧
      (∀ r : Fin Config.ngpr, t.reg r = s.reg r) ∧ t.sp = s.sp ∧ t.fl = s.fl ∧ t.err = s.err ∧ t.out = s.out ∧
      ∀ m : Byte, t.readByte m = s.readByte m

/-- ADD (41 R111): the sum modulo 256 (decision D4, log 9), of the old values also when the registers are the same. -/
def Obligations.AddIsModulo256 : Prop :=
  ∀ (s : State) (a b : Byte) (ha : a.toNat < 5) (hb : b.toNat < 5), s.pc.toNat ≤ 252 →
    ∃ t, exec (.add a b) s = .next t ∧
      (t.reg ⟨a.toNat, ha⟩).toNat = ((s.reg ⟨a.toNat, ha⟩).toNat + (s.reg ⟨b.toNat, hb⟩).toNat) % 256 ∧
      t.pc.toNat = s.pc.toNat + 3 ∧ OnlyRegisterChanges a s t

/-- SUB (41 R112): the difference modulo 256 (decision D4, log 9). -/
def Obligations.SubIsModulo256 : Prop :=
  ∀ (s : State) (a b : Byte) (ha : a.toNat < 5) (hb : b.toNat < 5), s.pc.toNat ≤ 252 →
    ∃ t, exec (.sub a b) s = .next t ∧
      ((t.reg ⟨a.toNat, ha⟩).toNat : Int) =
        (((s.reg ⟨a.toNat, ha⟩).toNat : Int) - (s.reg ⟨b.toNat, hb⟩).toNat) % 256 ∧
      t.pc.toNat = s.pc.toNat + 3 ∧ OnlyRegisterChanges a s t

/-- MUL (41 R113): the low 8 bits of the unsigned product (decision D4, log 9). -/
def Obligations.MulKeepsTheLowByte : Prop :=
  ∀ (s : State) (a b : Byte) (ha : a.toNat < 5) (hb : b.toNat < 5), s.pc.toNat ≤ 252 →
    ∃ t, exec (.mul a b) s = .next t ∧
      (t.reg ⟨a.toNat, ha⟩).toNat = ((s.reg ⟨a.toNat, ha⟩).toNat * (s.reg ⟨b.toNat, hb⟩).toNat) % 256 ∧
      t.pc.toNat = s.pc.toNat + 3 ∧ OnlyRegisterChanges a s t

/-- DIV (41 R114): the floor of the unsigned quotient (decision D5, log 10), for a divisor that is not 0: the one `q` with
`q * divisor <= dividend < (q + 1) * divisor`. -/
def Obligations.DivIsTheFloorOfTheQuotient : Prop :=
  ∀ (s : State) (a b : Byte) (ha : a.toNat < 5) (hb : b.toNat < 5), s.pc.toNat ≤ 252 → s.reg ⟨b.toNat, hb⟩ ≠ 0 →
    ∃ t, exec (.div a b) s = .next t ∧
      (t.reg ⟨a.toNat, ha⟩).toNat * (s.reg ⟨b.toNat, hb⟩).toNat ≤ (s.reg ⟨a.toNat, ha⟩).toNat ∧
      (s.reg ⟨a.toNat, ha⟩).toNat < ((t.reg ⟨a.toNat, ha⟩).toNat + 1) * (s.reg ⟨b.toNat, hb⟩).toNat ∧
      t.pc.toNat = s.pc.toNat + 3 ∧ OnlyRegisterChanges a s t

/-- INC and DEC (41 R115, R116): one up and one down modulo 256 (decision D4, log 9). -/
def Obligations.IncAndDecMoveByOneModulo256 : Prop :=
  ∀ (s : State) (a : Byte) (ha : a.toNat < 5), s.pc.toNat ≤ 253 →
    (∃ t, exec (.inc a) s = .next t ∧ (t.reg ⟨a.toNat, ha⟩).toNat = ((s.reg ⟨a.toNat, ha⟩).toNat + 1) % 256 ∧
      t.pc.toNat = s.pc.toNat + 2 ∧ OnlyRegisterChanges a s t) ∧
    (∃ t, exec (.dec a) s = .next t ∧ (t.reg ⟨a.toNat, ha⟩).toNat = ((s.reg ⟨a.toNat, ha⟩).toNat + 255) % 256 ∧
      t.pc.toNat = s.pc.toNat + 2 ∧ OnlyRegisterChanges a s t)

/-- CMP (42 R130): the whole of `fl` becomes 0x01, 0x04 or 0x02 as the left value is equal to, less than or greater than
the right one, unsigned (decisions D9, D10, logs 6, 25); no register and no memory cell is written. -/
def Obligations.CmpSetsExactlyOneFlag : Prop :=
  ∀ (s : State) (a b : Byte) (ha : a.toNat < 5) (hb : b.toNat < 5), s.pc.toNat ≤ 252 →
    ∃ t, exec (.cmp a b) s = .next t ∧
      ((s.reg ⟨a.toNat, ha⟩).toNat = (s.reg ⟨b.toNat, hb⟩).toNat → t.fl = 0x01) ∧
      ((s.reg ⟨a.toNat, ha⟩).toNat < (s.reg ⟨b.toNat, hb⟩).toNat → t.fl = 0x04) ∧
      ((s.reg ⟨b.toNat, hb⟩).toNat < (s.reg ⟨a.toNat, ha⟩).toNat → t.fl = 0x02) ∧
      t.pc.toNat = s.pc.toNat + 3 ∧ t.sp = s.sp ∧ RegistersMemoryOutputKept s t

/-- JEQ (42 R131): to the address in the register when `fl` is Equal, from any address; else to the next instruction,
which must exist. Only `pc` changes. -/
def Obligations.JeqJumpsWhenEqual : Prop :=
  ∀ (s : State) (a : Byte) (ha : a.toNat < 5),
    (s.fl = 0x01 → ∃ t, exec (.jeq a) s = .next t ∧ t.pc = s.reg ⟨a.toNat, ha⟩ ∧ t.sp = s.sp ∧ t.fl = s.fl ∧
      RegistersMemoryOutputKept s t) ∧
    (s.fl ≠ 0x01 → s.pc.toNat ≤ 253 → ∃ t, exec (.jeq a) s = .next t ∧ t.pc.toNat = s.pc.toNat + 2 ∧ t.sp = s.sp ∧
      t.fl = s.fl ∧ RegistersMemoryOutputKept s t)

/-- JNE (42 R132): the mirror image, so the reset value 0 of `fl` takes the jump. Only `pc` changes. -/
def Obligations.JneJumpsWhenNotEqual : Prop :=
  ∀ (s : State) (a : Byte) (ha : a.toNat < 5),
    (s.fl ≠ 0x01 → ∃ t, exec (.jne a) s = .next t ∧ t.pc = s.reg ⟨a.toNat, ha⟩ ∧ t.sp = s.sp ∧ t.fl = s.fl ∧
      RegistersMemoryOutputKept s t) ∧
    (s.fl = 0x01 → s.pc.toNat ≤ 253 → ∃ t, exec (.jne a) s = .next t ∧ t.pc.toNat = s.pc.toNat + 2 ∧ t.sp = s.sp ∧
      t.fl = s.fl ∧ RegistersMemoryOutputKept s t)

/-- AND, OR and XOR (43 R141 to R143), bit by bit, with the operands in registers (decision D6, log 11). -/
def Obligations.BitwiseResultsBitByBit : Prop :=
  ∀ (s : State) (a b : Byte) (ha : a.toNat < 5) (hb : b.toNat < 5), s.pc.toNat ≤ 252 →
    (∃ t, exec (.and a b) s = .next t ∧
      (∀ k, k < 8 → ((t.reg ⟨a.toNat, ha⟩).getLsbD k = true ↔
        ((s.reg ⟨a.toNat, ha⟩).getLsbD k = true ∧ (s.reg ⟨b.toNat, hb⟩).getLsbD k = true))) ∧
      t.pc.toNat = s.pc.toNat + 3 ∧ OnlyRegisterChanges a s t) ∧
    (∃ t, exec (.or a b) s = .next t ∧
      (∀ k, k < 8 → ((t.reg ⟨a.toNat, ha⟩).getLsbD k = true ↔
        ((s.reg ⟨a.toNat, ha⟩).getLsbD k = true ∨ (s.reg ⟨b.toNat, hb⟩).getLsbD k = true))) ∧
      t.pc.toNat = s.pc.toNat + 3 ∧ OnlyRegisterChanges a s t) ∧
    (∃ t, exec (.xor a b) s = .next t ∧
      (∀ k, k < 8 → ((t.reg ⟨a.toNat, ha⟩).getLsbD k = true ↔
        ((s.reg ⟨a.toNat, ha⟩).getLsbD k ≠ (s.reg ⟨b.toNat, hb⟩).getLsbD k))) ∧
      t.pc.toNat = s.pc.toNat + 3 ∧ OnlyRegisterChanges a s t)

/-- NOT (43 R144): every one of the 8 bits inverted, two bytes long (decision D7, log 12). -/
def Obligations.NotInvertsEveryBit : Prop :=
  ∀ (s : State) (a : Byte) (ha : a.toNat < 5), s.pc.toNat ≤ 253 →
    ∃ t, exec (.not a) s = .next t ∧
      (∀ k, k < 8 → (t.reg ⟨a.toNat, ha⟩).getLsbD k = !(s.reg ⟨a.toNat, ha⟩).getLsbD k) ∧
      t.pc.toNat = s.pc.toNat + 2 ∧ OnlyRegisterChanges a s t

/-- SHL (43 R145), bit by bit: bit `k` of the result is bit `k - amount` of the value, and 0 below the amount; the amount
is the whole byte, so 8 or more gives 0 (decision D11, log 13). -/
def Obligations.ShlMovesBitsUp : Prop :=
  ∀ (s : State) (a b : Byte) (ha : a.toNat < 5) (hb : b.toNat < 5), s.pc.toNat ≤ 252 →
    ∃ t, exec (.shl a b) s = .next t ∧
      (∀ k, k < 8 → (t.reg ⟨a.toNat, ha⟩).getLsbD k =
        (decide ((s.reg ⟨b.toNat, hb⟩).toNat ≤ k) &&
          (s.reg ⟨a.toNat, ha⟩).getLsbD (k - (s.reg ⟨b.toNat, hb⟩).toNat))) ∧
      t.pc.toNat = s.pc.toNat + 3 ∧ OnlyRegisterChanges a s t

/-- SHR (43 R146), bit by bit: bit `k` of the result is bit `k + amount` of the value, zeros entering at the top; the
amount is the whole byte, so 8 or more gives 0 (decision D11, log 13). -/
def Obligations.ShrMovesBitsDown : Prop :=
  ∀ (s : State) (a b : Byte) (ha : a.toNat < 5) (hb : b.toNat < 5), s.pc.toNat ≤ 252 →
    ∃ t, exec (.shr a b) s = .next t ∧
      (∀ k, k < 8 → (t.reg ⟨a.toNat, ha⟩).getLsbD k =
        (s.reg ⟨a.toNat, ha⟩).getLsbD (k + (s.reg ⟨b.toNat, hb⟩).toNat)) ∧
      t.pc.toNat = s.pc.toNat + 3 ∧ OnlyRegisterChanges a s t

/-- PUSH (44 R161): `sp` one down, the register at the new `sp`, every other byte of memory as before. The address is the
one the meaning stores to. -/
def Obligations.PushStoresAtTheNewStackPointer : Prop :=
  ∀ (s : State) (a : Byte) (ha : a.toNat < 5), s.mem.wf = true → 1 ≤ s.sp.toNat → s.pc.toNat ≤ 253 →
    ∃ t addr, exec (.push a) s = .next t ∧ pushAddress s = .ok addr ∧ addr.toNat = s.sp.toNat - 1 ∧ t.sp = addr ∧
      t.readByte addr = s.reg ⟨a.toNat, ha⟩ ∧ (∀ m : Byte, m ≠ addr → t.readByte m = s.readByte m) ∧
      t.pc.toNat = s.pc.toNat + 2 ∧ (∀ r : Fin Config.ngpr, t.reg r = s.reg r) ∧
      t.fl = s.fl ∧ t.run = s.run ∧ t.err = s.err ∧ t.out = s.out

/-- POP (44 R162): the byte at `sp` into the register, then `sp` one up; memory as before. Below the empty mark 0xF4 only
(decision D13, log 14). -/
def Obligations.PopLoadsFromTheStackPointer : Prop :=
  ∀ (s : State) (a : Byte) (ha : a.toNat < 5), s.sp.toNat < 0xF4 → s.pc.toNat ≤ 253 →
    ∃ t, exec (.pop a) s = .next t ∧ t.reg ⟨a.toNat, ha⟩ = s.readByte s.sp ∧ t.sp.toNat = s.sp.toNat + 1 ∧
      t.pc.toNat = s.pc.toNat + 2 ∧ (∀ r : Fin Config.ngpr, r.val ≠ a.toNat → t.reg r = s.reg r) ∧
      t.fl = s.fl ∧ t.run = s.run ∧ t.err = s.err ∧ t.out = s.out ∧ ∀ m : Byte, t.readByte m = s.readByte m

/-- CALL (44 R163): the return address `pc + 2` pushed, `pc` at the address in the register; no general register is
written. The address stored to is the one the meaning uses. -/
def Obligations.CallPushesTheReturnAddress : Prop :=
  ∀ (s : State) (a : Byte) (ha : a.toNat < 5), s.mem.wf = true → 1 ≤ s.sp.toNat → s.pc.toNat ≤ 253 →
    ∃ t addr, exec (.call a) s = .next t ∧ pushAddress s = .ok addr ∧ addr.toNat = s.sp.toNat - 1 ∧ t.sp = addr ∧
      (t.readByte addr).toNat = s.pc.toNat + 2 ∧ (∀ m : Byte, m ≠ addr → t.readByte m = s.readByte m) ∧
      t.pc = s.reg ⟨a.toNat, ha⟩ ∧ (∀ r : Fin Config.ngpr, t.reg r = s.reg r) ∧
      t.fl = s.fl ∧ t.run = s.run ∧ t.err = s.err ∧ t.out = s.out

/-- RET (44 R164): `pc` is the byte at `sp`, then `sp` one up, from any address; nothing else changes. Below the empty
mark 0xF4 only (decision D13, log 14). -/
def Obligations.RetJumpsToTheByteOnTop : Prop :=
  ∀ s : State, s.sp.toNat < 0xF4 →
    ∃ t, exec .ret s = .next t ∧ t.pc = s.readByte s.sp ∧ t.sp.toNat = s.sp.toNat + 1 ∧ t.fl = s.fl ∧
      RegistersMemoryOutputKept s t

/-- JMP (44 R165): `pc` is the register, from any address and to any address; nothing else changes. -/
def Obligations.JmpGoesToTheRegister : Prop :=
  ∀ (s : State) (a : Byte) (ha : a.toNat < 5),
    ∃ t, exec (.jmp a) s = .next t ∧ t.pc = s.reg ⟨a.toNat, ha⟩ ∧ t.sp = s.sp ∧ t.fl = s.fl ∧
      RegistersMemoryOutputKept s t

/-! ## Laws over two instructions -/

/-- The source's arithmetic identities (41 R117), which hold without exception under wrapping (decision D4): ADD then SUB
of another register, MUL by 1, and INC then DEC leave the register's value as it was. -/
def Obligations.ArithmeticIdentities : Prop :=
  (∀ (s t u : State) (a b : Byte) (ha : a.toNat < 5), a ≠ b → b.toNat < 5 → s.pc.toNat ≤ 249 →
    exec (.add a b) s = .next t → exec (.sub a b) t = .next u → u.reg ⟨a.toNat, ha⟩ = s.reg ⟨a.toNat, ha⟩) ∧
  (∀ (s t : State) (a b : Byte) (ha : a.toNat < 5) (hb : b.toNat < 5), s.pc.toNat ≤ 252 →
    s.reg ⟨b.toNat, hb⟩ = 1 → exec (.mul a b) s = .next t → t.reg ⟨a.toNat, ha⟩ = s.reg ⟨a.toNat, ha⟩) ∧
  (∀ (s t u : State) (a : Byte) (ha : a.toNat < 5), s.pc.toNat ≤ 251 →
    exec (.inc a) s = .next t → exec (.dec a) t = .next u → u.reg ⟨a.toNat, ha⟩ = s.reg ⟨a.toNat, ha⟩)

/-- Laws of the bitwise family (43 R147): NOT twice and XOR twice restore the value, and for an amount `n` of at most 7
SHR is DIV by `2^n` and SHL is MUL by `2^n` (decision D11). -/
def Obligations.BitwiseLaws : Prop :=
  (∀ (s t u : State) (a : Byte) (ha : a.toNat < 5), s.pc.toNat ≤ 251 →
    exec (.not a) s = .next t → exec (.not a) t = .next u → u.reg ⟨a.toNat, ha⟩ = s.reg ⟨a.toNat, ha⟩) ∧
  (∀ (s t u : State) (a b : Byte) (ha : a.toNat < 5), a ≠ b → b.toNat < 5 → s.pc.toNat ≤ 249 →
    exec (.xor a b) s = .next t → exec (.xor a b) t = .next u → u.reg ⟨a.toNat, ha⟩ = s.reg ⟨a.toNat, ha⟩) ∧
  (∀ (s t u : State) (a b : Byte) (ha : a.toNat < 5) (hb : b.toNat < 5), a ≠ b → s.pc.toNat ≤ 252 →
    (s.reg ⟨b.toNat, hb⟩).toNat ≤ 7 → exec (.shr a b) s = .next t →
    exec (.div a b) (s.setReg ⟨b.toNat, hb⟩ (BitVec.ofNat 8 (2 ^ (s.reg ⟨b.toNat, hb⟩).toNat))) = .next u →
    t.reg ⟨a.toNat, ha⟩ = u.reg ⟨a.toNat, ha⟩) ∧
  (∀ (s t u : State) (a b : Byte) (ha : a.toNat < 5) (hb : b.toNat < 5), a ≠ b → s.pc.toNat ≤ 252 →
    (s.reg ⟨b.toNat, hb⟩).toNat ≤ 7 → exec (.shl a b) s = .next t →
    exec (.mul a b) (s.setReg ⟨b.toNat, hb⟩ (BitVec.ofNat 8 (2 ^ (s.reg ⟨b.toNat, hb⟩).toNat))) = .next u →
    t.reg ⟨a.toNat, ha⟩ = u.reg ⟨a.toNat, ha⟩)

/-- PUSH then POP of the same register (44 R166 (a)) leaves every register and `sp` as they were; the only lasting change
but `pc` is the byte below the stack. -/
def Obligations.PushThenPopRoundTrips : Prop :=
  ∀ (s : State) (a : Byte) (ha : a.toNat < 5), s.mem.wf = true → 1 ≤ s.sp.toNat → s.sp.toNat ≤ 0xF4 →
    s.pc.toNat ≤ 251 →
    ∃ t u, exec (.push a) s = .next t ∧ exec (.pop a) t = .next u ∧ (∀ r : Fin Config.ngpr, u.reg r = s.reg r) ∧
      u.sp = s.sp ∧ u.pc.toNat = s.pc.toNat + 4 ∧ u.fl = s.fl ∧ u.run = s.run ∧ u.err = s.err ∧ u.out = s.out ∧
      ∀ m : Byte, u.readByte m = if m.toNat = s.sp.toNat - 1 then s.reg ⟨a.toNat, ha⟩ else s.readByte m

/-- CALL, then a RET from any state that has the stack as the CALL left it (44 R166 (b)): `pc` is at the instruction after
the CALL and `sp` is as it was. -/
def Obligations.CallThenRetRoundTrips : Prop :=
  ∀ (s t v : State) (a : Byte), a.toNat < 5 → s.mem.wf = true → 1 ≤ s.sp.toNat → s.sp.toNat ≤ 0xF4 →
    s.pc.toNat ≤ 251 → exec (.call a) s = .next t → v.sp = t.sp → v.readByte v.sp = t.readByte t.sp →
    ∃ u, exec .ret v = .next u ∧ u.pc.toNat = s.pc.toNat + 2 ∧ u.sp = s.sp

/-! ## Reset, load and the host (70_reset_and_hazards.md) -/

/-- The state right after reset (R201): `sp` = 0xF4, `fl` = 0, memory 0 and RUNNING are the source's; `pc`, the general
registers, `err` and `out` are the spec's decision D16 (logs 7, 8). -/
def Obligations.ResetValues : Prop :=
  State.reset.sp = 0xF4 ∧ State.reset.fl = 0x00 ∧ (∀ a : Byte, State.reset.readByte a = 0) ∧
  State.reset.run = .running ∧ State.reset.pc = 0x00 ∧ (∀ r : Fin Config.ngpr, State.reset.reg r = 0) ∧
  State.reset.err = none ∧ State.reset.out = []

/-- The launch state of a program (R203, R205): byte `k` of the stream in `M[k]`, 0 elsewhere, memory in canonical form
and the rest as after reset; a stream of more than 256 bytes is refused (decision D22, log 19). -/
def Obligations.LaunchLoadsTheProgram : Prop :=
  ∀ bytes : List Byte,
    (bytes.length ≤ 256 → ∃ s, launch bytes = .ok s ∧ s.mem.wf = true ∧
      (∀ a : Byte, s.readByte a = (bytes[a.toNat]?).getD 0) ∧
      s.x = State.reset.x ∧ s.pc = 0 ∧ s.sp = 0xF4 ∧ s.fl = 0 ∧ s.run = .running ∧ s.err = none ∧ s.out = []) ∧
    (256 < bytes.length → launch bytes = .error .programTooLong)

/-- The eight-cell register file (10 R20, R21), under every layout RESERVED_CELL may be (log 4): the general registers in
cells 0 to 4, each reserved register in a cell of its own among 5 to 7, and no other cell. -/
def Obligations.RegisterFileHasEightCells : Prop :=
  ∀ (l : ReservedLayout) (s : State),
    (∀ r : Fin Config.ngpr, s.fileCell l r.val = some (s.reg r)) ∧
    s.fileCell l (l.cellOf .pc) = some s.pc ∧ s.fileCell l (l.cellOf .sp) = some s.sp ∧
    s.fileCell l (l.cellOf .fl) = some s.fl ∧
    (∀ r, 5 ≤ l.cellOf r ∧ l.cellOf r ≤ 7) ∧ Function.Injective l.cellOf ∧
    ∀ c, 8 ≤ c → s.fileCell l c = none
end

