-- ==== Sys2Proof/Laws/Alu.lean ====
section
/-! SUPPORT. The ALU's operations as the 8-bit operations they are: each written as an exact integer result narrowed to
a byte in Machine/Alu.lean, each equal here to the operation on bit vectors. -/

namespace Sys2Proof.Machine

/-- What the narrowing keeps (00_scope.md R9). -/
theorem trunc8_toNat (v : Int) : ((trunc8 v).toNat : Int) = v % 256 := by
  simp only [trunc8, BitVec.toNat_ofInt]
  omega

theorem Alu.add_eq (x y : Byte) : Alu.add x y = x + y := by
  apply BitVec.eq_of_toNat_eq
  have h := trunc8_toNat ((x.toNat : Int) + y.toNat)
  simp only [Alu.add, BitVec.toNat_add]
  omega

theorem Alu.sub_eq (x y : Byte) : Alu.sub x y = x - y := by
  apply BitVec.eq_of_toNat_eq
  have h := trunc8_toNat ((x.toNat : Int) - y.toNat)
  have hx := x.isLt
  have hy := y.isLt
  simp only [Alu.sub, BitVec.toNat_sub]
  omega

theorem Alu.mul_eq (x y : Byte) : Alu.mul x y = x * y := by
  apply BitVec.eq_of_toNat_eq
  have h := trunc8_toNat ((x.toNat : Int) * y.toNat)
  simp only [Alu.mul, BitVec.toNat_mul]
  exact_mod_cast h

theorem Alu.inc_eq (x : Byte) : Alu.inc x = x + 1 := Alu.add_eq x 1

theorem Alu.dec_eq (x : Byte) : Alu.dec x = x - 1 := Alu.sub_eq x 1

theorem Alu.not_eq (x : Byte) : Alu.not x = ~~~x := by
  revert x
  decide

theorem Alu.shl_eq (x y : Byte) : Alu.shl x y = x <<< y.toNat := by
  apply BitVec.eq_of_toNat_eq
  have h := trunc8_toNat ((x.toNat : Int) * 2 ^ y.toNat)
  simp only [Alu.shl, BitVec.toNat_shiftLeft, Nat.shiftLeft_eq]
  exact_mod_cast h

theorem Alu.shr_eq (x y : Byte) : Alu.shr x y = x >>> y.toNat := by
  apply BitVec.eq_of_toNat_eq
  simp only [Alu.shr, BitVec.toNat_ushiftRight, Nat.shiftRight_eq_div_pow, BitVec.toNat_ofNat]
  exact Nat.mod_eq_of_lt (lt_of_le_of_lt (Nat.div_le_self _ _) x.isLt)

/-- The floor quotient of two bytes fits a byte, so nothing is cut off (41_alu_arithmetic.md R114). -/
theorem Alu.div_toNat (x y : Byte) : (Alu.div x y).toNat = x.toNat / y.toNat := by
  simp only [Alu.div, BitVec.toNat_ofNat]
  exact Nat.mod_eq_of_lt (lt_of_le_of_lt (Nat.div_le_self _ _) x.isLt)

end Sys2Proof.Machine
end

