-- ==== Sys2Proof/Laws/Decode.lean ====
section
/-! SUPPORT. The lookup, the operands and the fetch: each said once. -/

namespace Sys2Proof

/-! ## The lookup (30_encoding.md R76) -/

theorem Mnemonic.mem_all (m : Mnemonic) : m ∈ Mnemonic.all := by cases m <;> decide

/-- A hit of the lookup is a row with that opcode byte. -/
theorem lookupWith_some {map : Mnemonic → Byte} {op : Byte} {m : Mnemonic} (h : lookupWith map op = some m) :
    map m = op := by
  have hm := List.find?_some h
  simpa using hm

/-- A miss means that no row has that opcode byte. -/
theorem lookupWith_none {map : Mnemonic → Byte} {op : Byte} (h : lookupWith map op = none) (m : Mnemonic) :
    map m ≠ op := by
  have hm := List.find?_eq_none.1 h m m.mem_all
  simpa using hm

/-- Under an injective map the lookup of a row's byte is that row. -/
theorem lookupWith_map {map : Mnemonic → Byte} (hmap : Function.Injective map) (m : Mnemonic) :
    lookupWith map (map m) = some m := by
  cases h : lookupWith map (map m) with
  | none => exact absurd rfl (lookupWith_none h m)
  | some k => rw [hmap (lookupWith_some h)]

/-- The machine's own map has a byte of its own for every row. -/
theorem opcodeMap_injective : Function.Injective Config.opcodeMap := by
  have back : ∀ m, lookup (Config.opcodeMap m) = some m := by
    intro m
    cases m <;> decide
  intro m k h
  exact Option.some.inj ((back m).symm.trans ((congrArg lookup h).trans (back k)))

/-! ## The operands (30_encoding.md R71) -/

theorem oneOperand_ok {make : Byte → Instr} {bytes rest : List Byte} {i : Instr}
    (h : oneOperand make bytes = .ok (i, rest)) : ∃ a, bytes = a :: rest ∧ i = make a := by
  cases bytes with
  | nil => cases h
  | cons a r =>
    cases h
    exact ⟨a, rfl, rfl⟩

theorem twoOperands_ok {make : Byte → Byte → Instr} {bytes rest : List Byte} {i : Instr}
    (h : twoOperands make bytes = .ok (i, rest)) : ∃ a b, bytes = a :: b :: rest ∧ i = make a b := by
  match bytes, h with
  | a :: b :: r, h =>
    cases h
    exact ⟨a, b, rfl, rfl⟩

/-- What decodes under a row is an instruction of that row, and its operand bytes stood first. -/
theorem decodeOperands_ok {m : Mnemonic} {bytes rest : List Byte} {i : Instr}
    (h : decodeOperands m bytes = .ok (i, rest)) : m = i.mnemonic ∧ bytes = i.operandBytes ++ rest := by
  cases m with
  | hlt | ret =>
    cases h
    exact ⟨rfl, rfl⟩
  | push | pop | prn | call | jmp | jeq | jne | inc | dec | not =>
    obtain ⟨a, rfl, rfl⟩ := oneOperand_ok h
    exact ⟨rfl, rfl⟩
  | ldi | add | sub | mul | div | cmp | and | or | xor | shl | shr =>
    obtain ⟨a, b, rfl, rfl⟩ := twoOperands_ok h
    exact ⟨rfl, rfl⟩

namespace Machine

/-! ## The fetch (20_memory.md R52, R53) -/

/-- A run of bytes in memory, listed by address, without the addresses past 255. -/
theorem State.bytesFrom_eq (s : State) (n a : Nat) :
    s.bytesFrom a n = (List.range (min n (256 - a))).map fun k => s.mem.read (a + k) := by
  induction n generalizing a with
  | zero => simp [State.bytesFrom]
  | succ n ih =>
    simp only [State.bytesFrom]
    split
    · rename_i h
      have hmin : min (n + 1) (256 - a) = min n (256 - (a + 1)) + 1 := by
        simp only [Config.memSize] at h
        omega
      rw [ih, hmin, List.range_succ_eq_map]
      simp only [List.map_cons, List.map_map, Nat.add_zero]
      congr 1
      refine List.map_congr_left fun k _ => ?_
      simp only [Function.comp]
      congr 1
      omega
    · rename_i h
      have hmin : min (n + 1) (256 - a) = 0 := by
        simp only [Config.memSize] at h
        omega
      rw [hmin]
      rfl

/-- Storing bytes changes memory alone. -/
theorem State.storeBytes_eq (s : State) (a : Nat) (bytes : List Byte) :
    ∃ m, s.storeBytes a bytes = { s with mem := m } := by
  induction bytes generalizing s a with
  | nil => exact ⟨s.mem, rfl⟩
  | cons v rest ih =>
    simp only [State.storeBytes]
    split
    · obtain ⟨m, hm⟩ := ih { s with mem := s.mem.write a v } (a + 1)
      exact ⟨m, hm⟩
    · exact ⟨s.mem, rfl⟩

end Machine

end Sys2Proof
end

