-- ==== Sys2Proof/Laws/State.lean ====
section
/-! SUPPORT. One lemma per field of State per named update, true by unfolding, so that no later proof unfolds a record
update; then the reads `reg`, `readByte` and `flagEqual` after each update. -/

namespace Sys2Proof.Machine

variable (s : State)

/-! ## `setReg` -/

@[simp] theorem State.setReg_x (i : Fin Config.ngpr) (v : Byte) : (s.setReg i v).x = s.x.set i v := rfl
@[simp] theorem State.setReg_pc (i : Fin Config.ngpr) (v : Byte) : (s.setReg i v).pc = s.pc := rfl
@[simp] theorem State.setReg_sp (i : Fin Config.ngpr) (v : Byte) : (s.setReg i v).sp = s.sp := rfl
@[simp] theorem State.setReg_fl (i : Fin Config.ngpr) (v : Byte) : (s.setReg i v).fl = s.fl := rfl
@[simp] theorem State.setReg_run (i : Fin Config.ngpr) (v : Byte) : (s.setReg i v).run = s.run := rfl
@[simp] theorem State.setReg_err (i : Fin Config.ngpr) (v : Byte) : (s.setReg i v).err = s.err := rfl
@[simp] theorem State.setReg_out (i : Fin Config.ngpr) (v : Byte) : (s.setReg i v).out = s.out := rfl
@[simp] theorem State.setReg_mem (i : Fin Config.ngpr) (v : Byte) : (s.setReg i v).mem = s.mem := rfl
@[simp] theorem State.setReg_reg_same (i : Fin Config.ngpr) (v : Byte) : (s.setReg i v).reg i = v := by
  simp [State.reg]
theorem State.setReg_reg_other {i j : Fin Config.ngpr} (v : Byte) (h : j ≠ i) : (s.setReg i v).reg j = s.reg j := by
  have hv : (i : Nat) ≠ (j : Nat) := fun e => h (Fin.ext e.symm)
  simp [State.reg, Vector.getElem_set_ne _ _ hv]
@[simp] theorem State.setReg_readByte (i : Fin Config.ngpr) (v : Byte) (b : Byte) : (s.setReg i v).readByte b = s.readByte b := rfl
@[simp] theorem State.setReg_flagEqual (i : Fin Config.ngpr) (v : Byte) : (s.setReg i v).flagEqual = s.flagEqual := rfl

/-! ## `setPc` -/

@[simp] theorem State.setPc_x (v : Byte) : (s.setPc v).x = s.x := rfl
@[simp] theorem State.setPc_pc (v : Byte) : (s.setPc v).pc = v := rfl
@[simp] theorem State.setPc_sp (v : Byte) : (s.setPc v).sp = s.sp := rfl
@[simp] theorem State.setPc_fl (v : Byte) : (s.setPc v).fl = s.fl := rfl
@[simp] theorem State.setPc_run (v : Byte) : (s.setPc v).run = s.run := rfl
@[simp] theorem State.setPc_err (v : Byte) : (s.setPc v).err = s.err := rfl
@[simp] theorem State.setPc_out (v : Byte) : (s.setPc v).out = s.out := rfl
@[simp] theorem State.setPc_mem (v : Byte) : (s.setPc v).mem = s.mem := rfl
@[simp] theorem State.setPc_reg (v : Byte) (j : Fin Config.ngpr) : (s.setPc v).reg j = s.reg j := rfl
@[simp] theorem State.setPc_readByte (v : Byte) (b : Byte) : (s.setPc v).readByte b = s.readByte b := rfl
@[simp] theorem State.setPc_flagEqual (v : Byte) : (s.setPc v).flagEqual = s.flagEqual := rfl

/-! ## `setSp` -/

@[simp] theorem State.setSp_x (v : Byte) : (s.setSp v).x = s.x := rfl
@[simp] theorem State.setSp_pc (v : Byte) : (s.setSp v).pc = s.pc := rfl
@[simp] theorem State.setSp_sp (v : Byte) : (s.setSp v).sp = v := rfl
@[simp] theorem State.setSp_fl (v : Byte) : (s.setSp v).fl = s.fl := rfl
@[simp] theorem State.setSp_run (v : Byte) : (s.setSp v).run = s.run := rfl
@[simp] theorem State.setSp_err (v : Byte) : (s.setSp v).err = s.err := rfl
@[simp] theorem State.setSp_out (v : Byte) : (s.setSp v).out = s.out := rfl
@[simp] theorem State.setSp_mem (v : Byte) : (s.setSp v).mem = s.mem := rfl
@[simp] theorem State.setSp_reg (v : Byte) (j : Fin Config.ngpr) : (s.setSp v).reg j = s.reg j := rfl
@[simp] theorem State.setSp_readByte (v : Byte) (b : Byte) : (s.setSp v).readByte b = s.readByte b := rfl
@[simp] theorem State.setSp_flagEqual (v : Byte) : (s.setSp v).flagEqual = s.flagEqual := rfl

/-! ## `setFl` -/

@[simp] theorem State.setFl_x (v : Byte) : (s.setFl v).x = s.x := rfl
@[simp] theorem State.setFl_pc (v : Byte) : (s.setFl v).pc = s.pc := rfl
@[simp] theorem State.setFl_sp (v : Byte) : (s.setFl v).sp = s.sp := rfl
@[simp] theorem State.setFl_fl (v : Byte) : (s.setFl v).fl = v := rfl
@[simp] theorem State.setFl_run (v : Byte) : (s.setFl v).run = s.run := rfl
@[simp] theorem State.setFl_err (v : Byte) : (s.setFl v).err = s.err := rfl
@[simp] theorem State.setFl_out (v : Byte) : (s.setFl v).out = s.out := rfl
@[simp] theorem State.setFl_mem (v : Byte) : (s.setFl v).mem = s.mem := rfl
@[simp] theorem State.setFl_reg (v : Byte) (j : Fin Config.ngpr) : (s.setFl v).reg j = s.reg j := rfl
@[simp] theorem State.setFl_readByte (v : Byte) (b : Byte) : (s.setFl v).readByte b = s.readByte b := rfl

/-! ## `halt` -/

@[simp] theorem State.halt_x : s.halt.x = s.x := rfl
@[simp] theorem State.halt_pc : s.halt.pc = s.pc := rfl
@[simp] theorem State.halt_sp : s.halt.sp = s.sp := rfl
@[simp] theorem State.halt_fl : s.halt.fl = s.fl := rfl
@[simp] theorem State.halt_run : s.halt.run = .halted := rfl
@[simp] theorem State.halt_err : s.halt.err = s.err := rfl
@[simp] theorem State.halt_out : s.halt.out = s.out := rfl
@[simp] theorem State.halt_mem : s.halt.mem = s.mem := rfl
@[simp] theorem State.halt_reg (j : Fin Config.ngpr) : s.halt.reg j = s.reg j := rfl
@[simp] theorem State.halt_readByte (b : Byte) : s.halt.readByte b = s.readByte b := rfl
@[simp] theorem State.halt_flagEqual : s.halt.flagEqual = s.flagEqual := rfl

/-! ## `print` -/

@[simp] theorem State.print_x (v : Byte) : (s.print v).x = s.x := rfl
@[simp] theorem State.print_pc (v : Byte) : (s.print v).pc = s.pc := rfl
@[simp] theorem State.print_sp (v : Byte) : (s.print v).sp = s.sp := rfl
@[simp] theorem State.print_fl (v : Byte) : (s.print v).fl = s.fl := rfl
@[simp] theorem State.print_run (v : Byte) : (s.print v).run = s.run := rfl
@[simp] theorem State.print_err (v : Byte) : (s.print v).err = s.err := rfl
@[simp] theorem State.print_out (v : Byte) : (s.print v).out = s.out ++ [v] := rfl
@[simp] theorem State.print_mem (v : Byte) : (s.print v).mem = s.mem := rfl
@[simp] theorem State.print_reg (v : Byte) (j : Fin Config.ngpr) : (s.print v).reg j = s.reg j := rfl
@[simp] theorem State.print_readByte (v : Byte) (b : Byte) : (s.print v).readByte b = s.readByte b := rfl
@[simp] theorem State.print_flagEqual (v : Byte) : (s.print v).flagEqual = s.flagEqual := rfl

/-! ## `writeByte` -/

@[simp] theorem State.writeByte_x (a v : Byte) : (s.writeByte a v).x = s.x := rfl
@[simp] theorem State.writeByte_pc (a v : Byte) : (s.writeByte a v).pc = s.pc := rfl
@[simp] theorem State.writeByte_sp (a v : Byte) : (s.writeByte a v).sp = s.sp := rfl
@[simp] theorem State.writeByte_fl (a v : Byte) : (s.writeByte a v).fl = s.fl := rfl
@[simp] theorem State.writeByte_run (a v : Byte) : (s.writeByte a v).run = s.run := rfl
@[simp] theorem State.writeByte_err (a v : Byte) : (s.writeByte a v).err = s.err := rfl
@[simp] theorem State.writeByte_out (a v : Byte) : (s.writeByte a v).out = s.out := rfl
@[simp] theorem State.writeByte_mem (a v : Byte) : (s.writeByte a v).mem = s.mem.write a.toNat v := rfl
@[simp] theorem State.writeByte_reg (a v : Byte) (j : Fin Config.ngpr) : (s.writeByte a v).reg j = s.reg j := rfl
@[simp] theorem State.writeByte_flagEqual (a v : Byte) : (s.writeByte a v).flagEqual = s.flagEqual := rfl

/-! ## `raise` -/

@[simp] theorem State.raise_x (e : FaultRecord) : (s.raise e).x = s.x := rfl
@[simp] theorem State.raise_pc (e : FaultRecord) : (s.raise e).pc = s.pc := rfl
@[simp] theorem State.raise_sp (e : FaultRecord) : (s.raise e).sp = s.sp := rfl
@[simp] theorem State.raise_fl (e : FaultRecord) : (s.raise e).fl = s.fl := rfl
@[simp] theorem State.raise_run (e : FaultRecord) : (s.raise e).run = .faulted := rfl
@[simp] theorem State.raise_err (e : FaultRecord) : (s.raise e).err = some e := rfl
@[simp] theorem State.raise_out (e : FaultRecord) : (s.raise e).out = s.out := rfl
@[simp] theorem State.raise_mem (e : FaultRecord) : (s.raise e).mem = s.mem := rfl
@[simp] theorem State.raise_reg (e : FaultRecord) (j : Fin Config.ngpr) : (s.raise e).reg j = s.reg j := rfl
@[simp] theorem State.raise_readByte (e : FaultRecord) (b : Byte) : (s.raise e).readByte b = s.readByte b := rfl
@[simp] theorem State.raise_flagEqual (e : FaultRecord) : (s.raise e).flagEqual = s.flagEqual := rfl

/-! ## `pushAt` -/

@[simp] theorem State.pushAt_x (a v : Byte) : (s.pushAt a v).x = s.x := rfl
@[simp] theorem State.pushAt_pc (a v : Byte) : (s.pushAt a v).pc = s.pc := rfl
@[simp] theorem State.pushAt_sp (a v : Byte) : (s.pushAt a v).sp = a := rfl
@[simp] theorem State.pushAt_fl (a v : Byte) : (s.pushAt a v).fl = s.fl := rfl
@[simp] theorem State.pushAt_run (a v : Byte) : (s.pushAt a v).run = s.run := rfl
@[simp] theorem State.pushAt_err (a v : Byte) : (s.pushAt a v).err = s.err := rfl
@[simp] theorem State.pushAt_out (a v : Byte) : (s.pushAt a v).out = s.out := rfl
@[simp] theorem State.pushAt_mem (a v : Byte) : (s.pushAt a v).mem = s.mem.write a.toNat v := rfl
@[simp] theorem State.pushAt_reg (a v : Byte) (j : Fin Config.ngpr) : (s.pushAt a v).reg j = s.reg j := rfl
@[simp] theorem State.pushAt_flagEqual (a v : Byte) : (s.pushAt a v).flagEqual = s.flagEqual := rfl

/-! ## `popAt` -/

@[simp] theorem State.popAt_x (a : Byte) : (s.popAt a).x = s.x := rfl
@[simp] theorem State.popAt_pc (a : Byte) : (s.popAt a).pc = s.pc := rfl
@[simp] theorem State.popAt_sp (a : Byte) : (s.popAt a).sp = BitVec.ofNat 8 (a.toNat + 1) := rfl
@[simp] theorem State.popAt_fl (a : Byte) : (s.popAt a).fl = s.fl := rfl
@[simp] theorem State.popAt_run (a : Byte) : (s.popAt a).run = s.run := rfl
@[simp] theorem State.popAt_err (a : Byte) : (s.popAt a).err = s.err := rfl
@[simp] theorem State.popAt_out (a : Byte) : (s.popAt a).out = s.out := rfl
@[simp] theorem State.popAt_mem (a : Byte) : (s.popAt a).mem = s.mem := rfl
@[simp] theorem State.popAt_reg (a : Byte) (j : Fin Config.ngpr) : (s.popAt a).reg j = s.reg j := rfl
@[simp] theorem State.popAt_readByte (a : Byte) (b : Byte) : (s.popAt a).readByte b = s.readByte b := rfl
@[simp] theorem State.popAt_flagEqual (a : Byte) : (s.popAt a).flagEqual = s.flagEqual := rfl

/-- Two states with the same fields are the same state, register by register. -/
theorem State.ext_fields {s t : State} (hx : ∀ i, s.reg i = t.reg i) (hpc : s.pc = t.pc) (hsp : s.sp = t.sp)
    (hfl : s.fl = t.fl) (hrun : s.run = t.run) (herr : s.err = t.err) (hout : s.out = t.out) (hmem : s.mem = t.mem) :
    s = t := by
  obtain ⟨sx, _, _, _, _, _, _, _⟩ := s
  obtain ⟨tx, _, _, _, _, _, _, _⟩ := t
  have hx' : sx = tx := Vector.ext fun i hi => hx ⟨i, hi⟩
  subst hx'
  simp_all

end Sys2Proof.Machine
end

