-- ==== Sys2Proof/Laws/Memory.lean ====
section
/-! SUPPORT. Memory: a read after a write, and every memory operation keeps the canonical form. -/

namespace Sys2Proof.Machine

@[simp] theorem Memory.read_nil (a : Nat) : Memory.read [] a = Config.memReset := rfl

@[simp] theorem Memory.read_cons (b : Nat) (v : Byte) (m : Memory) (a : Nat) :
    Memory.read ((b, v) :: m) a = if b = a then v else Memory.read m a := rfl

theorem Memory.wfFrom_cons {lo a : Nat} {v : Byte} {m : Memory} :
    Memory.wfFrom lo ((a, v) :: m) = true ↔
      lo ≤ a ∧ a < Config.memSize ∧ v ≠ Config.memReset ∧ Memory.wfFrom (a + 1) m = true := by
  simp [Memory.wfFrom, and_assoc]

theorem Memory.wfFrom_mono {lo hi : Nat} {m : Memory} (h : lo ≤ hi) (hm : Memory.wfFrom hi m = true) :
    Memory.wfFrom lo m = true := by
  cases m with
  | nil => rfl
  | cons c m =>
    obtain ⟨b, w⟩ := c
    rw [Memory.wfFrom_cons] at hm ⊢
    exact ⟨le_trans h hm.1, hm.2⟩

/-- Below the first address a canonical memory can list, every cell reads as its reset value. -/
theorem Memory.read_below {lo a : Nat} {m : Memory} (hm : Memory.wfFrom lo m = true) (h : a < lo) :
    Memory.read m a = Config.memReset := by
  induction m generalizing lo with
  | nil => rfl
  | cons c m ih =>
    obtain ⟨b, w⟩ := c
    rw [Memory.wfFrom_cons] at hm
    rw [Memory.read_cons, if_neg (by omega), ih hm.2.2.2 (by omega)]

theorem Memory.consCell_wf {lo a : Nat} {v : Byte} {m : Memory} (hlo : lo ≤ a) (ha : a < Config.memSize)
    (hm : Memory.wfFrom (a + 1) m = true) : Memory.wfFrom lo (Memory.consCell a v m) = true := by
  unfold Memory.consCell
  split
  · exact Memory.wfFrom_mono (by omega) hm
  · rename_i hv
    exact Memory.wfFrom_cons.2 ⟨hlo, ha, hv, hm⟩

theorem Memory.wfFrom_write {lo a : Nat} {v : Byte} {m : Memory} (hlo : lo ≤ a) (ha : a < Config.memSize)
    (hm : Memory.wfFrom lo m = true) : Memory.wfFrom lo (Memory.write m a v) = true := by
  induction m generalizing lo with
  | nil => exact Memory.consCell_wf hlo ha rfl
  | cons c m ih =>
    obtain ⟨b, w⟩ := c
    have h := Memory.wfFrom_cons.1 hm
    simp only [Memory.write]
    split
    · exact Memory.consCell_wf hlo ha (Memory.wfFrom_cons.2 ⟨by omega, h.2⟩)
    split
    · rename_i hab
      subst hab
      exact Memory.consCell_wf hlo ha h.2.2.2
    · exact Memory.wfFrom_cons.2 ⟨h.1, h.2.1, h.2.2.1, ih (by omega) h.2.2.2⟩

/-- Writing a byte keeps the canonical form. -/
theorem Memory.wf_write {a : Nat} {v : Byte} {m : Memory} (ha : a < Config.memSize) (hm : m.wf = true) :
    (Memory.write m a v).wf = true :=
  Memory.wfFrom_write (Nat.zero_le a) ha hm

theorem Memory.read_consCell {a c : Nat} {v : Byte} {m : Memory} (hm : Memory.read m a = Config.memReset) :
    Memory.read (Memory.consCell a v m) c = if c = a then v else Memory.read m c := by
  unfold Memory.consCell
  split
  · rename_i hv
    by_cases h : c = a
    · rw [if_pos h, hv, h, hm]
    · rw [if_neg h]
  · rw [Memory.read_cons]
    by_cases h : c = a
    · rw [if_pos h, if_pos h.symm]
    · rw [if_neg h, if_neg (Ne.symm h)]

theorem Memory.read_write_from {lo a c : Nat} {v : Byte} {m : Memory} (hm : Memory.wfFrom lo m = true) :
    Memory.read (Memory.write m a v) c = if c = a then v else Memory.read m c := by
  induction m generalizing lo with
  | nil => exact Memory.read_consCell rfl
  | cons p m ih =>
    obtain ⟨b, w⟩ := p
    have h := Memory.wfFrom_cons.1 hm
    simp only [Memory.write]
    split
    · rename_i hab
      exact Memory.read_consCell (Memory.read_below (Memory.wfFrom_cons.2 ⟨le_refl b, h.2⟩) hab)
    split
    · rename_i hab
      subst hab
      rw [Memory.read_consCell (Memory.read_below h.2.2.2 (by omega)), Memory.read_cons]
      by_cases hc : c = a
      · rw [if_pos hc, if_pos hc]
      · rw [if_neg hc, if_neg hc, if_neg (Ne.symm hc)]
    · rename_i hne
      rw [Memory.read_cons, Memory.read_cons, ih h.2.2.2]
      by_cases hc : b = c
      · rw [if_pos hc, if_pos hc, if_neg (by omega)]
      · rw [if_neg hc, if_neg hc]

/-- A read after a write (20_memory.md R51): the byte written at its address, every other cell as before. -/
theorem Memory.read_write {a c : Nat} {v : Byte} {m : Memory} (hm : m.wf = true) :
    Memory.read (Memory.write m a v) c = if c = a then v else Memory.read m c :=
  Memory.read_write_from hm

theorem State.writeByte_readByte {s : State} (hm : s.mem.wf = true) (a v b : Byte) :
    (s.writeByte a v).readByte b = if b = a then v else s.readByte b := by
  simp only [State.readByte, State.writeByte_mem, Memory.read_write hm, BitVec.toNat_inj]

theorem State.pushAt_readByte {s : State} (hm : s.mem.wf = true) (a v b : Byte) :
    (s.pushAt a v).readByte b = if b = a then v else s.readByte b := by
  simp only [State.readByte, State.pushAt_mem, Memory.read_write hm, BitVec.toNat_inj]

theorem State.wf_pushAt {s : State} (hm : s.mem.wf = true) (a v : Byte) : (s.pushAt a v).mem.wf = true :=
  Memory.wf_write a.isLt hm

/-- Storing bytes from an address upward keeps the canonical form. -/
theorem State.wf_storeBytes {s : State} (hm : s.mem.wf = true) (a : Nat) (bytes : List Byte) :
    (s.storeBytes a bytes).mem.wf = true := by
  induction bytes generalizing s a with
  | nil => exact hm
  | cons v rest ih =>
    simp only [State.storeBytes]
    split
    · rename_i ha
      exact ih (Memory.wf_write ha hm) (a + 1)
    · exact hm

/-- The memory right after reset is in canonical form. -/
theorem State.reset_mem_wf : State.reset.mem.wf = true := by decide

/-- After reset every cell holds 0 (10_state.md R34). -/
@[simp] theorem State.reset_readByte (a : Byte) : State.reset.readByte a = 0 := rfl

/-- A canonical memory is determined by what it reads as. -/
theorem Memory.ext_read_from {lo : Nat} {m n : Memory} (hm : Memory.wfFrom lo m = true) (hn : Memory.wfFrom lo n = true)
    (h : ∀ a, Memory.read m a = Memory.read n a) : m = n := by
  induction m generalizing lo n with
  | nil =>
    cases n with
    | nil => rfl
    | cons c n =>
      obtain ⟨b, w⟩ := c
      have hb := h b
      simp only [Memory.read_nil, Memory.read_cons, if_true] at hb
      exact absurd hb.symm (Memory.wfFrom_cons.1 hn).2.2.1
  | cons p m ih =>
    obtain ⟨a, v⟩ := p
    have hm' := Memory.wfFrom_cons.1 hm
    cases n with
    | nil =>
      have ha := h a
      simp only [Memory.read_nil, Memory.read_cons, if_true] at ha
      exact absurd ha hm'.2.2.1
    | cons c n =>
      obtain ⟨b, w⟩ := c
      have hn' := Memory.wfFrom_cons.1 hn
      have hab : a = b := by
        by_contra hne
        rcases Nat.lt_or_gt_of_ne hne with hlt | hgt
        · have ha := h a
          rw [Memory.read_cons, if_pos rfl, Memory.read_cons, if_neg (by omega),
            Memory.read_below hn'.2.2.2 (by omega)] at ha
          exact hm'.2.2.1 ha
        · have hb := h b
          rw [Memory.read_cons, if_neg (by omega), Memory.read_below hm'.2.2.2 (by omega),
            Memory.read_cons, if_pos rfl] at hb
          exact hn'.2.2.1 hb.symm
      subst hab
      have hvw : v = w := by
        have ha := h a
        simpa only [Memory.read_cons, if_true] using ha
      subst hvw
      congr 1
      refine ih hm'.2.2.2 hn'.2.2.2 fun c => ?_
      have hc := h c
      rw [Memory.read_cons, Memory.read_cons] at hc
      by_cases hac : a = c
      · rw [Memory.read_below hm'.2.2.2 (by omega), Memory.read_below hn'.2.2.2 (by omega)]
      · rwa [if_neg hac, if_neg hac] at hc

/-- Equal memories are equal data: two canonical memories that read alike are the same list. -/
theorem Memory.ext_read {m n : Memory} (hm : m.wf = true) (hn : n.wf = true)
    (h : ∀ a, Memory.read m a = Memory.read n a) : m = n :=
  Memory.ext_read_from hm hn h

end Sys2Proof.Machine
end

