-- ==== Sys2Proof/Laws/Ops.lean ====
section
/-! SUPPORT. For each shared operation, once, everything it can do. Later proofs cite these instead of unfolding. -/

namespace Sys2Proof.Machine

/-! ## The monad of the checks -/

@[simp] theorem check_ok_bind {α β : Type} (a : α) (f : α → Except FaultRecord β) : (Except.ok a >>= f) = f a := rfl

@[simp] theorem check_error_bind {α β : Type} (e : FaultRecord) (f : α → Except FaultRecord β) :
    ((Except.error e : Except FaultRecord α) >>= f) = Except.error e := rfl

/-- A chain of checks succeeds exactly when each of its parts does. -/
theorem check_bind_ok {α β : Type} {x : Except FaultRecord α} {f : α → Except FaultRecord β} {b : β}
    (h : (x >>= f) = .ok b) : ∃ a, x = .ok a ∧ f a = .ok b := by
  cases x with
  | ok a => exact ⟨a, rfl, h⟩
  | error e => cases h

/-- A chain of checks fails where its first part fails, or later. -/
theorem check_bind_error {α β : Type} {x : Except FaultRecord α} {f : α → Except FaultRecord β} {e : FaultRecord}
    (h : (x >>= f) = .error e) : x = .error e ∨ ∃ a, x = .ok a ∧ f a = .error e := by
  cases x with
  | ok a => exact .inr ⟨a, rfl, h⟩
  | error e' => exact .inl (by simpa using h)

/-! ## Completing a step -/

@[simp] theorem complete_ok (s t : State) : complete s (.ok t) = .next t := rfl

@[simp] theorem complete_pure (s t : State) : complete s (pure t) = .next t := rfl

@[simp] theorem complete_error (s : State) (e : FaultRecord) : complete s (.error e) = .next (s.raise e) := rfl

/-- A completed step is the commit of an instruction whose checks passed, or a fault that wrote `run` and `err` only
(60_exceptions.md R188). -/
theorem complete_cases {s t : State} {r : Except FaultRecord State} (h : complete s r = .next t) :
    r = .ok t ∨ ∃ e, r = .error e ∧ t = s.raise e := by
  cases r with
  | ok u =>
    simp only [complete_ok, Host.Outcome.next.injEq] at h
    exact .inl (by rw [h])
  | error e =>
    simp only [complete_error, Host.Outcome.next.injEq] at h
    exact .inr ⟨e, rfl, h.symm⟩

/-- Completing a step always answers a next state. -/
theorem complete_total (s : State) (r : Except FaultRecord State) : ∃ t, complete s r = .next t := by
  cases r with
  | ok t => exact ⟨t, rfl⟩
  | error e => exact ⟨s.raise e, rfl⟩

/-! ## Register operands (30_encoding.md R74) -/

theorem regOperand_ok {v : Byte} (s : State) (h : v.toNat < Config.ngpr) : regOperand v s = .ok ⟨v.toNat, h⟩ :=
  dif_pos h

theorem regOperand_error {v : Byte} (s : State) (h : ¬ v.toNat < Config.ngpr) :
    regOperand v s = .error (.regIndexFault v s.pc) :=
  dif_neg h

theorem regOperand_cases (v : Byte) (s : State) :
    (∃ h : v.toNat < Config.ngpr, regOperand v s = .ok ⟨v.toNat, h⟩) ∨
      (¬ v.toNat < Config.ngpr ∧ regOperand v s = .error (.regIndexFault v s.pc)) := by
  by_cases h : v.toNat < Config.ngpr
  · exact .inl ⟨h, regOperand_ok s h⟩
  · exact .inr ⟨h, regOperand_error s h⟩

/-! ## The addresses the core computes (20_memory.md R53) -/

theorem successor_ok {len : Nat} {s : State} (h : s.pc.toNat + len < Config.memSize) :
    successor len s = .ok (BitVec.ofNat 8 (s.pc.toNat + len)) :=
  if_pos h

theorem successor_error {len : Nat} {s : State} (h : ¬ s.pc.toNat + len < Config.memSize) :
    successor len s = .error (.memBoundsFault ((s.pc.toNat + len : Nat) : Int) s.pc) :=
  if_neg h

/-- A successor that exists is `pc + L`, without wrapping. -/
theorem successor_value {len : Nat} {s : State} {next : Byte} (h : successor len s = .ok next) :
    next.toNat = s.pc.toNat + len ∧ s.pc.toNat + len < Config.memSize := by
  unfold successor at h
  split at h
  · rename_i hlt
    cases h
    exact ⟨by simp only [BitVec.toNat_ofNat]; exact Nat.mod_eq_of_lt hlt, hlt⟩
  · cases h

theorem pushAddress_ok {s : State} (h : 1 ≤ s.sp.toNat) : pushAddress s = .ok (BitVec.ofNat 8 (s.sp.toNat - 1)) :=
  if_pos h

theorem pushAddress_error {s : State} (h : s.sp = 0) : pushAddress s = .error (.memBoundsFault (-1) s.pc) := by
  simp [pushAddress, h]

/-- A push address that exists is `sp - 1`, without wrapping. -/
theorem pushAddress_value {s : State} {addr : Byte} (h : pushAddress s = .ok addr) :
    1 ≤ s.sp.toNat ∧ addr.toNat = s.sp.toNat - 1 := by
  unfold pushAddress at h
  split at h
  · rename_i h1
    cases h
    refine ⟨h1, ?_⟩
    have := s.sp.isLt
    simp only [BitVec.toNat_ofNat]
    omega
  · cases h

theorem popAddress_ok {s : State} (h : s.sp.toNat < Config.spReset.toNat) : popAddress s = .ok s.sp :=
  if_pos h

theorem popAddress_error {s : State} (h : ¬ s.sp.toNat < Config.spReset.toNat) :
    popAddress s = .error (.stackUnderflowFault s.pc s.sp) :=
  if_neg h

/-- A pop address that exists is `sp`, below the empty stack's mark. -/
theorem popAddress_value {s : State} {addr : Byte} (h : popAddress s = .ok addr) :
    addr = s.sp ∧ s.sp.toNat < 0xF4 := by
  unfold popAddress at h
  split at h
  · rename_i hlt
    cases h
    exact ⟨rfl, hlt⟩
  · cases h

/-! ## The operand forms (30_encoding.md R71) -/

/-- All that format RR's read-modify-write can do when it commits. -/
theorem binaryForm_ok {f : Byte → Byte → Byte} {a b : Byte} {s t : State} (h : binaryForm f a b s = .ok t) :
    ∃ i j next, regOperand a s = .ok i ∧ regOperand b s = .ok j ∧ successor 3 s = .ok next ∧
      t = (s.setReg i (f (s.reg i) (s.reg j))).setPc next := by
  obtain ⟨i, hi, h⟩ := check_bind_ok h
  obtain ⟨j, hj, h⟩ := check_bind_ok h
  obtain ⟨next, hn, h⟩ := check_bind_ok h
  cases h
  exact ⟨i, j, next, hi, hj, hn, rfl⟩

/-- All that format R's read-modify-write can do when it commits. -/
theorem unaryForm_ok {f : Byte → Byte} {a : Byte} {s t : State} (h : unaryForm f a s = .ok t) :
    ∃ i next, regOperand a s = .ok i ∧ successor 2 s = .ok next ∧ t = (s.setReg i (f (s.reg i))).setPc next := by
  obtain ⟨i, hi, h⟩ := check_bind_ok h
  obtain ⟨next, hn, h⟩ := check_bind_ok h
  cases h
  exact ⟨i, next, hi, hn, rfl⟩

/-- All that a conditional jump can do when it commits. -/
theorem branchForm_ok {taken : Bool} {a : Byte} {s t : State} (h : branchForm taken a s = .ok t) :
    ∃ i, regOperand a s = .ok i ∧
      ((taken = true ∧ t = s.setPc (s.reg i)) ∨
        (taken = false ∧ ∃ next, successor 2 s = .ok next ∧ t = s.setPc next)) := by
  obtain ⟨i, hi, h⟩ := check_bind_ok h
  cases taken with
  | true =>
    cases h
    exact ⟨i, hi, .inl ⟨rfl, rfl⟩⟩
  | false =>
    obtain ⟨next, hn, h⟩ := check_bind_ok h
    cases h
    exact ⟨i, hi, .inr ⟨rfl, next, hn, rfl⟩⟩

/-- The divisor check passes exactly for a divisor that is not 0. -/
theorem nonzeroDivisor_cases (d : Byte) (s : State) :
    (d ≠ 0 ∧ nonzeroDivisor d s = .ok ()) ∨ (d = 0 ∧ nonzeroDivisor d s = .error (.divideByZeroFault s.pc)) := by
  by_cases h : d = 0
  · exact .inr ⟨h, if_pos h⟩
  · exact .inl ⟨h, if_neg h⟩

end Sys2Proof.Machine
end

