-- ==== Sys2Proof/Laws/Exec.lean ====
section
/-! SUPPORT. What one instruction can do, said once: `exec_effect` lists every next state `exec` can answer, with the
guard of each, so that a proof over all instructions is a case analysis of `Effect` and unfolds no meaning. -/

namespace Sys2Proof.Machine

/-! ## Why an instruction faults -/

/-- Every cause for which the meaning of an instruction raises, with the record it raises (60_exceptions.md R187). -/
inductive FaultCause (s : State) : Instr → FaultRecord → Prop where
  /-- A register operand names no register (R185). -/
  | register {i : Instr} (v : Byte) (operand : v ∈ i.regOperands) (high : ¬ v.toNat < Config.ngpr) :
      FaultCause s i (.regIndexFault v s.pc)
  /-- DIV's divisor register holds 0 (R183). -/
  | divisor (a b : Byte) (j : Fin Config.ngpr) (named : regOperand b s = .ok j) (zero : s.reg j = 0) :
      FaultCause s (.div a b) (.divideByZeroFault s.pc)
  /-- PUSH or CALL has no room (R184). -/
  | noRoom (i : Instr) (a : Byte) (which : i = .push a ∨ i = .call a) (zero : s.sp = 0) :
      FaultCause s i (.memBoundsFault (-1) s.pc)
  /-- POP or RET finds the stack empty (R186). -/
  | emptyStack (i : Instr) (which : (∃ a, i = .pop a) ∨ i = .ret) (empty : ¬ s.sp.toNat < Config.spReset.toNat) :
      FaultCause s i (.stackUnderflowFault s.pc s.sp)
  /-- The address after the instruction does not exist (R184). -/
  | noSuccessor (i : Instr) (beyond : ¬ s.pc.toNat + i.mnemonic.length < Config.memSize) :
      FaultCause s i (.memBoundsFault ((s.pc.toNat + i.mnemonic.length : Nat) : Int) s.pc)

/-- A register operand that fails is a cause. -/
theorem FaultCause.of_register {s : State} {i : Instr} {v : Byte} {e : FaultRecord} (hv : v ∈ i.regOperands)
    (h : regOperand v s = .error e) : FaultCause s i e := by
  rcases regOperand_cases v s with ⟨_, h'⟩ | ⟨hn, h'⟩
  · rw [h'] at h
    cases h
  · rw [h'] at h
    cases h
    exact .register v hv hn

/-- A successor that fails is a cause. -/
theorem FaultCause.of_successor {s : State} {i : Instr} {len : Nat} {e : FaultRecord} (hl : len = i.mnemonic.length)
    (h : successor len s = .error e) : FaultCause s i e := by
  subst hl
  by_cases hs : s.pc.toNat + i.mnemonic.length < Config.memSize
  · rw [successor_ok hs] at h
    cases h
  · rw [successor_error hs] at h
    cases h
    exact .noSuccessor i hs

/-- A push address that fails is a cause. -/
theorem FaultCause.of_pushAddress {s : State} {i : Instr} {a : Byte} {e : FaultRecord} (hi : i = .push a ∨ i = .call a)
    (h : pushAddress s = .error e) : FaultCause s i e := by
  by_cases hs : 1 ≤ s.sp.toNat
  · rw [pushAddress_ok hs] at h
    cases h
  · have h0 : s.sp = 0 := BitVec.eq_of_toNat_eq (Nat.lt_one_iff.1 (not_le.1 hs))
    rw [pushAddress_error h0] at h
    cases h
    exact .noRoom i a hi h0

/-- A pop address that fails is a cause. -/
theorem FaultCause.of_popAddress {s : State} {i : Instr} {e : FaultRecord} (hi : (∃ a, i = .pop a) ∨ i = .ret)
    (h : popAddress s = .error e) : FaultCause s i e := by
  by_cases hs : s.sp.toNat < Config.spReset.toNat
  · rw [popAddress_ok hs] at h
    cases h
  · rw [popAddress_error hs] at h
    cases h
    exact .emptyStack i hi hs

/-! ## What an instruction does -/

/-- The instructions of format RR that are a read-modify-write of `x[a]` with no check of their own. -/
inductive BinaryOp : Instr → (Byte → Byte → Byte) → Byte → Byte → Prop where
  | add (a b : Byte) : BinaryOp (.add a b) Alu.add a b
  | sub (a b : Byte) : BinaryOp (.sub a b) Alu.sub a b
  | mul (a b : Byte) : BinaryOp (.mul a b) Alu.mul a b
  | and (a b : Byte) : BinaryOp (.and a b) Alu.and a b
  | or (a b : Byte) : BinaryOp (.or a b) Alu.or a b
  | xor (a b : Byte) : BinaryOp (.xor a b) Alu.xor a b
  | shl (a b : Byte) : BinaryOp (.shl a b) Alu.shl a b
  | shr (a b : Byte) : BinaryOp (.shr a b) Alu.shr a b

/-- The instructions of format R that are a read-modify-write of `x[a]`. -/
inductive UnaryOp : Instr → (Byte → Byte) → Byte → Prop where
  | inc (a : Byte) : UnaryOp (.inc a) Alu.inc a
  | dec (a : Byte) : UnaryOp (.dec a) Alu.dec a
  | not (a : Byte) : UnaryOp (.not a) Alu.not a

/-- The conditional jumps, with what each takes its jump on. -/
inductive BranchOp (s : State) : Instr → Bool → Byte → Prop where
  | jeq (a : Byte) : BranchOp s (.jeq a) s.flagEqual a
  | jne (a : Byte) : BranchOp s (.jne a) (!s.flagEqual) a

/-- Every next state an instruction can have from `s`, with the guard of each. -/
inductive Effect (s : State) : Instr → State → Prop where
  | raise {i : Instr} {e : FaultRecord} (cause : FaultCause s i e) : Effect s i (s.raise e)
  | binary {i : Instr} {f : Byte → Byte → Byte} {a b n : Byte} {j k : Fin Config.ngpr} (op : BinaryOp i f a b)
      (ha : regOperand a s = .ok j) (hb : regOperand b s = .ok k) (hn : successor 3 s = .ok n) :
      Effect s i ((s.setReg j (f (s.reg j) (s.reg k))).setPc n)
  | div {a b n : Byte} {j k : Fin Config.ngpr} (ha : regOperand a s = .ok j) (hb : regOperand b s = .ok k)
      (nonzero : s.reg k ≠ 0) (hn : successor 3 s = .ok n) :
      Effect s (.div a b) ((s.setReg j (Alu.div (s.reg j) (s.reg k))).setPc n)
  | unary {i : Instr} {f : Byte → Byte} {a n : Byte} {j : Fin Config.ngpr} (op : UnaryOp i f a)
      (ha : regOperand a s = .ok j) (hn : successor 2 s = .ok n) : Effect s i ((s.setReg j (f (s.reg j))).setPc n)
  | ldi {a imm n : Byte} {j : Fin Config.ngpr} (ha : regOperand a s = .ok j) (hn : successor 3 s = .ok n) :
      Effect s (.ldi a imm) ((s.setReg j imm).setPc n)
  | prn {a n : Byte} {j : Fin Config.ngpr} (ha : regOperand a s = .ok j) (hn : successor 2 s = .ok n) :
      Effect s (.prn a) ((s.print (s.reg j)).setPc n)
  | hlt {n : Byte} (hn : successor 1 s = .ok n) : Effect s .hlt (s.halt.setPc n)
  | cmp {a b n : Byte} {j k : Fin Config.ngpr} (ha : regOperand a s = .ok j) (hb : regOperand b s = .ok k)
      (hn : successor 3 s = .ok n) : Effect s (.cmp a b) ((s.setFl (compareFlags (s.reg j) (s.reg k))).setPc n)
  | taken {i : Instr} {a : Byte} {j : Fin Config.ngpr} (op : BranchOp s i true a) (ha : regOperand a s = .ok j) :
      Effect s i (s.setPc (s.reg j))
  | untaken {i : Instr} {a n : Byte} {j : Fin Config.ngpr} (op : BranchOp s i false a) (ha : regOperand a s = .ok j)
      (hn : successor 2 s = .ok n) : Effect s i (s.setPc n)
  | push {a d n : Byte} {j : Fin Config.ngpr} (ha : regOperand a s = .ok j) (hd : pushAddress s = .ok d)
      (hn : successor 2 s = .ok n) : Effect s (.push a) ((s.pushAt d (s.reg j)).setPc n)
  | pop {a d n : Byte} {j : Fin Config.ngpr} (ha : regOperand a s = .ok j) (hd : popAddress s = .ok d)
      (hn : successor 2 s = .ok n) : Effect s (.pop a) (((s.popAt d).setReg j (s.readByte d)).setPc n)
  | call {a d n : Byte} {j : Fin Config.ngpr} (ha : regOperand a s = .ok j) (hd : pushAddress s = .ok d)
      (hn : successor 2 s = .ok n) : Effect s (.call a) ((s.pushAt d n).setPc (s.reg j))
  | ret {d : Byte} (hd : popAddress s = .ok d) : Effect s .ret ((s.popAt d).setPc (s.readByte d))
  | jmp {a : Byte} {j : Fin Config.ngpr} (ha : regOperand a s = .ok j) : Effect s (.jmp a) (s.setPc (s.reg j))

/-! ## Each shape -/

theorem binary_effect {s t : State} {i : Instr} {f : Byte → Byte → Byte} {a b : Byte} (op : BinaryOp i f a b)
    (hlen : 3 = i.mnemonic.length) (hops : i.regOperands = [a, b])
    (h : complete s (binaryForm f a b s) = .next t) : Effect s i t := by
  rcases complete_cases h with h | ⟨e, he, rfl⟩
  · obtain ⟨j, k, n, ha, hb, hn, rfl⟩ := binaryForm_ok h
    exact .binary op ha hb hn
  · refine .raise ?_
    rcases check_bind_error he with h | ⟨_, _, h⟩
    · exact .of_register (v := a) (by simp [hops]) h
    rcases check_bind_error h with h | ⟨_, _, h⟩
    · exact .of_register (v := b) (by simp [hops]) h
    rcases check_bind_error h with h | ⟨_, _, h⟩
    · exact .of_successor hlen h
    cases h

theorem unary_effect {s t : State} {i : Instr} {f : Byte → Byte} {a : Byte} (op : UnaryOp i f a)
    (hlen : 2 = i.mnemonic.length) (hops : i.regOperands = [a]) (h : complete s (unaryForm f a s) = .next t) :
    Effect s i t := by
  rcases complete_cases h with h | ⟨e, he, rfl⟩
  · obtain ⟨j, n, ha, hn, rfl⟩ := unaryForm_ok h
    exact .unary op ha hn
  · refine .raise ?_
    rcases check_bind_error he with h | ⟨_, _, h⟩
    · exact .of_register (v := a) (by simp [hops]) h
    rcases check_bind_error h with h | ⟨_, _, h⟩
    · exact .of_successor hlen h
    cases h

theorem branch_effect {s t : State} {i : Instr} {taken : Bool} {a : Byte} (op : BranchOp s i taken a)
    (hlen : 2 = i.mnemonic.length) (hops : i.regOperands = [a]) (h : complete s (branchForm taken a s) = .next t) :
    Effect s i t := by
  rcases complete_cases h with h | ⟨e, he, rfl⟩
  · obtain ⟨j, ha, ⟨rfl, rfl⟩ | ⟨rfl, n, hn, rfl⟩⟩ := branchForm_ok h
    · exact .taken op ha
    · exact .untaken op ha hn
  · refine .raise ?_
    rcases check_bind_error he with h | ⟨_, _, h⟩
    · exact .of_register (v := a) (by simp [hops]) h
    cases taken with
    | true => cases h
    | false =>
      rcases check_bind_error h with h | ⟨_, _, h⟩
      · exact .of_successor hlen h
      cases h

theorem div_effect {s t : State} {a b : Byte} (h : execDiv a b s = .next t) : Effect s (.div a b) t := by
  rcases complete_cases h with h | ⟨e, he, rfl⟩
  · obtain ⟨j, ha, h⟩ := check_bind_ok h
    obtain ⟨k, hb, h⟩ := check_bind_ok h
    obtain ⟨_, hd, h⟩ := check_bind_ok h
    obtain ⟨n, hn, h⟩ := check_bind_ok h
    cases h
    rcases nonzeroDivisor_cases (s.reg k) s with ⟨h0, _⟩ | ⟨_, he⟩
    · exact .div ha hb h0 hn
    · rw [he] at hd
      cases hd
  · refine .raise ?_
    rcases check_bind_error he with h | ⟨j, ha, h⟩
    · exact .of_register (v := a) (by simp [Instr.regOperands]) h
    rcases check_bind_error h with h | ⟨k, hb, h⟩
    · exact .of_register (v := b) (by simp [Instr.regOperands]) h
    rcases check_bind_error h with h | ⟨_, _, h⟩
    · rcases nonzeroDivisor_cases (s.reg k) s with ⟨_, he⟩ | ⟨h0, he⟩
      · rw [he] at h
        cases h
      · rw [he] at h
        cases h
        exact .divisor a b k hb h0
    rcases check_bind_error h with h | ⟨_, _, h⟩
    · exact .of_successor rfl h
    cases h

/-- A meaning of the shape register operand, successor, commit (LDI and PRN). -/
theorem register_effect {s t : State} {i : Instr} {a : Byte} {len : Nat} {commit : Fin Config.ngpr → Byte → State}
    (hlen : len = i.mnemonic.length) (hops : i.regOperands = [a])
    (hc : ∀ j n, regOperand a s = .ok j → successor len s = .ok n → Effect s i (commit j n))
    (h : complete s (do let j ← regOperand a s; let n ← successor len s; return commit j n) = .next t) :
    Effect s i t := by
  rcases complete_cases h with h | ⟨e, he, rfl⟩
  · obtain ⟨j, ha, h⟩ := check_bind_ok h
    obtain ⟨n, hn, h⟩ := check_bind_ok h
    cases h
    exact hc j n ha hn
  · refine .raise ?_
    rcases check_bind_error he with h | ⟨_, _, h⟩
    · exact .of_register (v := a) (by simp [hops]) h
    rcases check_bind_error h with h | ⟨_, _, h⟩
    · exact .of_successor hlen h
    cases h

theorem cmp_effect {s t : State} {a b : Byte} (h : execCmp a b s = .next t) : Effect s (.cmp a b) t := by
  rcases complete_cases h with h | ⟨e, he, rfl⟩
  · obtain ⟨j, ha, h⟩ := check_bind_ok h
    obtain ⟨k, hb, h⟩ := check_bind_ok h
    obtain ⟨n, hn, h⟩ := check_bind_ok h
    cases h
    exact .cmp ha hb hn
  · refine .raise ?_
    rcases check_bind_error he with h | ⟨_, _, h⟩
    · exact .of_register (v := a) (by simp [Instr.regOperands]) h
    rcases check_bind_error h with h | ⟨_, _, h⟩
    · exact .of_register (v := b) (by simp [Instr.regOperands]) h
    rcases check_bind_error h with h | ⟨_, _, h⟩
    · exact .of_successor rfl h
    cases h

theorem hlt_effect {s t : State} (h : execHlt s = .next t) : Effect s .hlt t := by
  rcases complete_cases h with h | ⟨e, he, rfl⟩
  · obtain ⟨n, hn, h⟩ := check_bind_ok h
    cases h
    exact .hlt hn
  · refine .raise ?_
    rcases check_bind_error he with h | ⟨_, _, h⟩
    · exact .of_successor rfl h
    cases h

/-- A meaning of the shape register operand, stack address, successor, commit (PUSH, POP and CALL). -/
theorem stack_effect {s t : State} {i : Instr} {a : Byte} {address : Except FaultRecord Byte}
    {commit : Fin Config.ngpr → Byte → Byte → State} (hlen : 2 = i.mnemonic.length) (hops : i.regOperands = [a])
    (hd : ∀ e, address = .error e → FaultCause s i e)
    (hc : ∀ j d n, regOperand a s = .ok j → address = .ok d → successor 2 s = .ok n → Effect s i (commit j d n))
    (h : complete s (do let j ← regOperand a s; let d ← address; let n ← successor 2 s; return commit j d n) =
      .next t) : Effect s i t := by
  rcases complete_cases h with h | ⟨e, he, rfl⟩
  · obtain ⟨j, ha, h⟩ := check_bind_ok h
    obtain ⟨d, hd, h⟩ := check_bind_ok h
    obtain ⟨n, hn, h⟩ := check_bind_ok h
    cases h
    exact hc j d n ha hd hn
  · refine .raise ?_
    rcases check_bind_error he with h | ⟨_, _, h⟩
    · exact .of_register (v := a) (by simp [hops]) h
    rcases check_bind_error h with h | ⟨_, _, h⟩
    · exact hd e h
    rcases check_bind_error h with h | ⟨_, _, h⟩
    · exact .of_successor hlen h
    cases h

theorem ret_effect {s t : State} (h : execRet s = .next t) : Effect s .ret t := by
  rcases complete_cases h with h | ⟨e, he, rfl⟩
  · obtain ⟨d, hd, h⟩ := check_bind_ok h
    cases h
    exact .ret hd
  · refine .raise ?_
    rcases check_bind_error he with h | ⟨_, _, h⟩
    · exact .of_popAddress (.inr rfl) h
    cases h

theorem jmp_effect {s t : State} {a : Byte} (h : execJmp a s = .next t) : Effect s (.jmp a) t := by
  rcases complete_cases h with h | ⟨e, he, rfl⟩
  · obtain ⟨j, ha, h⟩ := check_bind_ok h
    cases h
    exact .jmp ha
  · refine .raise ?_
    rcases check_bind_error he with h | ⟨_, _, h⟩
    · exact .of_register (v := a) (by simp [Instr.regOperands]) h
    cases h

/-- All that an instruction can do when `exec` answers a next state. -/
theorem exec_effect {i : Instr} {s t : State} (h : exec i s = .next t) : Effect s i t := by
  cases i with
  | hlt => exact hlt_effect h
  | ret => exact ret_effect h
  | push a => exact stack_effect rfl rfl (fun _ => .of_pushAddress (.inl rfl)) (fun _ _ _ => .push) h
  | pop a => exact stack_effect rfl rfl (fun _ => .of_popAddress (.inl ⟨a, rfl⟩)) (fun _ _ _ => .pop) h
  | prn a => exact register_effect rfl rfl (fun _ _ => .prn) h
  | call a => exact stack_effect rfl rfl (fun _ => .of_pushAddress (.inr rfl)) (fun _ _ _ => .call) h
  | jmp a => exact jmp_effect h
  | jeq a => exact branch_effect (.jeq a) rfl rfl h
  | jne a => exact branch_effect (.jne a) rfl rfl h
  | inc a => exact unary_effect (.inc a) rfl rfl h
  | dec a => exact unary_effect (.dec a) rfl rfl h
  | not a => exact unary_effect (.not a) rfl rfl h
  | ldi a imm => exact register_effect rfl rfl (fun _ _ => .ldi) h
  | add a b => exact binary_effect (.add a b) rfl rfl h
  | sub a b => exact binary_effect (.sub a b) rfl rfl h
  | mul a b => exact binary_effect (.mul a b) rfl rfl h
  | div a b => exact div_effect h
  | cmp a b => exact cmp_effect h
  | and a b => exact binary_effect (.and a b) rfl rfl h
  | or a b => exact binary_effect (.or a b) rfl rfl h
  | xor a b => exact binary_effect (.xor a b) rfl rfl h
  | shl a b => exact binary_effect (.shl a b) rfl rfl h
  | shr a b => exact binary_effect (.shr a b) rfl rfl h

/-- Every meaning ends a step: it commits or takes a fault, and never stops. -/
theorem exec_next (i : Instr) (s : State) : ∃ t, exec i s = .next t := by
  cases i <;> exact complete_total s _

/-- What a step of the core is: a running core ran the instruction it fetched, or took the fault of the fetch. -/
theorem step_next {s t : State} (h : step s = .next t) :
    s.run = .running ∧ ((∃ i, s.fetch = .ok i ∧ Effect s i t) ∨ ∃ e, s.fetch = .error e ∧ t = s.raise e) := by
  unfold step at h
  split at h
  · rename_i hr
    split at h
    · rename_i i hf
      exact ⟨hr, .inl ⟨i, hf, exec_effect h⟩⟩
    · rename_i e hf
      cases h
      exact ⟨hr, .inr ⟨e, hf, rfl⟩⟩
  · cases h
  · cases h

end Sys2Proof.Machine
end

