-- ==== Sys2Proof/Laws/PerInstr.lean ====
section
/-! SUPPORT. Per instruction: its encoding is its opcode byte and as many operand bytes as the table's row says, and
its register operands are among them. -/

namespace Sys2Proof.Laws.Encoding

/-- The encoding of an instruction has the length of its row (30_encoding.md R70, R73), begins with the row's opcode
byte, and its register operands stand among its operand bytes, first (R71). -/
def Statement (i : Instr) : Prop :=
  (encode i).length = i.mnemonic.length ∧ (encode i).head? = some (Config.opcodeMap i.mnemonic) ∧
    i.regOperands <+: i.operandBytes

theorem hlt : Statement .hlt := ⟨rfl, rfl, [], rfl⟩
theorem ret : Statement .ret := ⟨rfl, rfl, [], rfl⟩
theorem push (a : Byte) : Statement (.push a) := ⟨rfl, rfl, [], rfl⟩
theorem pop (a : Byte) : Statement (.pop a) := ⟨rfl, rfl, [], rfl⟩
theorem prn (a : Byte) : Statement (.prn a) := ⟨rfl, rfl, [], rfl⟩
theorem call (a : Byte) : Statement (.call a) := ⟨rfl, rfl, [], rfl⟩
theorem jmp (a : Byte) : Statement (.jmp a) := ⟨rfl, rfl, [], rfl⟩
theorem jeq (a : Byte) : Statement (.jeq a) := ⟨rfl, rfl, [], rfl⟩
theorem jne (a : Byte) : Statement (.jne a) := ⟨rfl, rfl, [], rfl⟩
theorem inc (a : Byte) : Statement (.inc a) := ⟨rfl, rfl, [], rfl⟩
theorem dec (a : Byte) : Statement (.dec a) := ⟨rfl, rfl, [], rfl⟩
theorem not (a : Byte) : Statement (.not a) := ⟨rfl, rfl, [], rfl⟩
theorem ldi (a imm : Byte) : Statement (.ldi a imm) := ⟨rfl, rfl, [imm], rfl⟩
theorem add (a b : Byte) : Statement (.add a b) := ⟨rfl, rfl, [], rfl⟩
theorem sub (a b : Byte) : Statement (.sub a b) := ⟨rfl, rfl, [], rfl⟩
theorem mul (a b : Byte) : Statement (.mul a b) := ⟨rfl, rfl, [], rfl⟩
theorem div (a b : Byte) : Statement (.div a b) := ⟨rfl, rfl, [], rfl⟩
theorem cmp (a b : Byte) : Statement (.cmp a b) := ⟨rfl, rfl, [], rfl⟩
theorem and (a b : Byte) : Statement (.and a b) := ⟨rfl, rfl, [], rfl⟩
theorem or (a b : Byte) : Statement (.or a b) := ⟨rfl, rfl, [], rfl⟩
theorem xor (a b : Byte) : Statement (.xor a b) := ⟨rfl, rfl, [], rfl⟩
theorem shl (a b : Byte) : Statement (.shl a b) := ⟨rfl, rfl, [], rfl⟩
theorem shr (a b : Byte) : Statement (.shr a b) := ⟨rfl, rfl, [], rfl⟩

end Sys2Proof.Laws.Encoding
end

