-- ==== Sys2Proof/Laws/Run.lean ====
section
/-! SUPPORT. Runs: one lemma per case of `runFuel`, and how the two relations of steps fit together. -/

namespace Sys2Proof.Machine

@[simp] theorem runFuel_zero (s : State) : runFuel 0 s = s := rfl

/-- A core that steps uses one unit of fuel for it. -/
theorem runFuel_of_next {s t : State} (n : Nat) (h : step s = .next t) : runFuel (n + 1) s = runFuel n t := by
  simp only [runFuel, h]

/-- A core that is not RUNNING stays where it is. -/
theorem runFuel_of_terminal {s : State} (n : Nat) (h : s.run ≠ .running) : runFuel n s = s := by
  cases n with
  | zero => rfl
  | succ n =>
    cases hs : step s with
    | next t => exact absurd (step_next hs).1 h
    | fault f => simp only [runFuel, hs]
    | refused r => simp only [runFuel, hs]

/-- A counted run is a run. -/
theorem StepsIn.steps {n : Nat} {s t : State} (h : StepsIn n s t) : Steps (fun _ => True) s t := by
  induction h with
  | zero s => exact .refl s
  | succ taken _ ih => exact .step trivial taken ih

/-- Runs compose. -/
theorem Steps.trans {P : State → Prop} {s t u : State} (h : Steps P s t) (k : Steps P t u) : Steps P s u := by
  induction h with
  | refl _ => exact k
  | step holds taken _ ih => exact .step holds taken (ih k)

end Sys2Proof.Machine
end

