-- ==== Sys2Proof/Machine/Assembly.lean ====
section
/-! DEFINITION. The one notation the spec writes instructions in (30_encoding.md R81, R83): the mnemonic in capitals,
`R` and a decimal number for a register, a decimal numeral for an immediate, destination first. -/

namespace Sys2Proof.Machine

/-- The mnemonic as the opcode table spells it (30_encoding.md R76). -/
def mnemonicText : Mnemonic → String
  | .hlt => "HLT"
  | .ret => "RET"
  | .push => "PUSH"
  | .pop => "POP"
  | .prn => "PRN"
  | .call => "CALL"
  | .jmp => "JMP"
  | .jeq => "JEQ"
  | .jne => "JNE"
  | .inc => "INC"
  | .dec => "DEC"
  | .not => "NOT"
  | .ldi => "LDI"
  | .add => "ADD"
  | .sub => "SUB"
  | .mul => "MUL"
  | .div => "DIV"
  | .cmp => "CMP"
  | .and => "AND"
  | .or => "OR"
  | .xor => "XOR"
  | .shl => "SHL"
  | .shr => "SHR"

/-- A register operand. -/
def registerText (a : Byte) : String := "R" ++ toString a.toNat

/-- The operands after a space, separated by a comma, in the order of the instruction's operand bytes. -/
def operandText : Instr → String
  | .hlt | .ret => ""
  | .push a | .pop a | .prn a | .call a | .jmp a | .jeq a | .jne a => " " ++ registerText a
  | .inc a | .dec a | .not a => " " ++ registerText a
  | .ldi a imm => " " ++ registerText a ++ "," ++ toString imm.toNat
  | .add a b | .sub a b | .mul a b | .div a b | .cmp a b => " " ++ registerText a ++ "," ++ registerText b
  | .and a b | .or a b | .xor a b | .shl a b | .shr a b => " " ++ registerText a ++ "," ++ registerText b

/-- An instruction in the spec's notation. -/
def assemblyText (i : Instr) : String := mnemonicText i.mnemonic ++ operandText i

end Sys2Proof.Machine
end

