-- ==== Sys2Proof/Tests/Slice0.lean ====
section
/-! SUPPORT. Tests. Every expected result comes from the spec: words from the table of 30_encoding.md R76 and its formats
(R71), results from the vectors of 95_test_vectors.md, named by their ids. The witnesses show that the hypotheses of each
statement of Obligations.lean can be met, at the boundary values of their ranges. -/

namespace Sys2Proof.Tests

open Sys2Proof.Machine Sys2Proof.Claims

/-! ## Helpers -/

/-- A running core with these registers, `pc`, `sp`, `fl` and memory cells (listed in canonical form). -/
def start (r : Vector Byte 5) (pc sp fl : Byte) (mem : Memory := []) : State :=
  { State.reset with x := r, pc := pc, sp := sp, fl := fl, mem := mem }

/-- A core at `pc` with the empty stack, no flag and these bytes there. -/
def holding (r : Vector Byte 5) (pc : Byte) (bytes : List Byte) : State :=
  (start r pc 0xF4 0x00).storeBytes pc.toNat bytes

/-- The next state, where there is one. -/
def after : Result → Option State
  | .next t => some t
  | .fault _ => none
  | .refused _ => none

/-- What one step from `s` leaves in the fields `f`. -/
def stepped {α : Type} (s : State) (f : State → α) : Option α := (after (step s)).map f

/-- `s` after a step that raised `e` and changed nothing else. -/
def raised (s : State) (e : FaultRecord) : Option State := some { s with run := .faulted, err := some e }

/-! ## Decoding: one word per row, written out bit by bit from R76 and R71 -/

theorem test_decode_hlt : decode [0b00000001] = .ok (.hlt, []) := by decide
theorem test_decode_ret : decode [0b00010001] = .ok (.ret, []) := by decide
theorem test_decode_push : decode [0b01000101, 0b00000010] = .ok (.push 2, []) := by decide
theorem test_decode_pop : decode [0b01000110, 0b00000011] = .ok (.pop 3, []) := by decide
theorem test_decode_prn : decode [0b01000111, 0b00000100] = .ok (.prn 4, []) := by decide
theorem test_decode_call : decode [0b01010000, 0b00000000] = .ok (.call 0, []) := by decide
theorem test_decode_jmp : decode [0b01010100, 0b00000001] = .ok (.jmp 1, []) := by decide
theorem test_decode_jeq : decode [0b01010101, 0b00000010] = .ok (.jeq 2, []) := by decide
theorem test_decode_jne : decode [0b01010110, 0b00000011] = .ok (.jne 3, []) := by decide
theorem test_decode_inc : decode [0b01100101, 0b00000100] = .ok (.inc 4, []) := by decide
theorem test_decode_dec : decode [0b01100110, 0b00000000] = .ok (.dec 0, []) := by decide
theorem test_decode_not : decode [0b01101001, 0b00000001] = .ok (.not 1, []) := by decide
theorem test_decode_ldi : decode [0b10000010, 0b00000010, 0b11000111] = .ok (.ldi 2 199, []) := by decide
theorem test_decode_add : decode [0b10100000, 0b00000011, 0b00000000] = .ok (.add 3 0, []) := by decide
theorem test_decode_sub : decode [0b10100001, 0b00000100, 0b00000001] = .ok (.sub 4 1, []) := by decide
theorem test_decode_mul : decode [0b10100010, 0b00000000, 0b00000010] = .ok (.mul 0 2, []) := by decide
theorem test_decode_div : decode [0b10100011, 0b00000001, 0b00000011] = .ok (.div 1 3, []) := by decide
theorem test_decode_cmp : decode [0b10100111, 0b00000010, 0b00000100] = .ok (.cmp 2 4, []) := by decide
theorem test_decode_and : decode [0b10101000, 0b00000011, 0b00000000] = .ok (.and 3 0, []) := by decide
theorem test_decode_or : decode [0b10101010, 0b00000100, 0b00000001] = .ok (.or 4 1, []) := by decide
theorem test_decode_xor : decode [0b10101011, 0b00000000, 0b00000010] = .ok (.xor 0 2, []) := by decide
theorem test_decode_shl : decode [0b10101100, 0b00000001, 0b00000011] = .ok (.shl 1 3, []) := by decide
theorem test_decode_shr : decode [0b10101101, 0b00000010, 0b00000100] = .ok (.shr 2 4, []) := by decide

/-- The numbering of the opcode table: the first byte is the lowest. -/
theorem test_table_word_sub : decodeTableWord 24 0x0301A1 = some (.sub 1 3) := by decide

/-- Bits above `nbits` are 0, so operand bytes the row does not count are 0. -/
theorem test_table_word_short : decodeTableWord 8 0x0301A1 = some (.sub 0 0) := by decide

/-- An opcode that differs from HLT in one bit is illegal (vector DCD4). -/
theorem test_decode_illegal : decode [0x02, 0x00, 0x01] = .error (.unknownOpcode 0x02) := by decide

/-- The bytes end before the second operand. -/
theorem test_decode_missing : decode [0x82, 0x00] = .error (.missingByte 2) := by decide

/-- A first byte is wanted even of no bytes. -/
theorem test_decode_empty : decode [] = .error (.missingByte 0) := by decide

/-! ## Well-formedness: an ill-formed term for each check -/

theorem smoke_first_operand : (Instr.add 5 0).wellFormed = false := by decide
theorem smoke_second_operand : (Instr.shr 0 5).wellFormed = false := by decide
theorem smoke_one_operand : (Instr.jne 255).wellFormed = false := by decide
theorem smoke_ldi_register : (Instr.ldi 5 1).wellFormed = false := by decide
theorem smoke_byte_not_masked : (Instr.push 8).wellFormed = false := by decide
theorem smoke_ldi_immediate_is_data : (Instr.ldi 4 7).wellFormed = true := by decide
theorem smoke_memory_reset_cell : Memory.wf [(3, 0x00)] = false := by decide
theorem smoke_memory_order : Memory.wf [(3, 0x01), (3, 0x02)] = false := by decide
theorem smoke_memory_range : Memory.wf [(256, 0x01)] = false := by decide

/-! ## One step each (95_test_vectors.md Part 2) -/

/-- Vector LDI9, at the highest address LDI executes at. -/
theorem test_ldi : stepped (holding #v[0, 0, 0, 0, 0] 0xFC [0x82, 0x00, 0x01]) (fun t => (t.reg 0, t.pc)) = some (0x01, 0xFF) := by decide

/-- Vector LDI8. -/
theorem test_ldi_register_not_masked : after (step (holding #v[0, 0, 0, 0, 0] 0x00 [0x82, 0xFF, 0x01])) =
    raised (holding #v[0, 0, 0, 0, 0] 0x00 [0x82, 0xFF, 0x01]) (.regIndexFault 255 0) := by decide

/-- Vector PRN1. -/
theorem test_prn : stepped (holding #v[0x0F, 0, 0, 0, 0] 0x09 [0x47, 0x00]) (fun t => (t.out, t.pc)) = some ([15], 0x0B) := by decide

/-- Vector PRN3: nothing is printed. -/
theorem test_prn_beyond : after (step (holding #v[0, 0, 0, 0, 0] 0xFE [0x47, 0x00])) =
    raised (holding #v[0, 0, 0, 0, 0] 0xFE [0x47, 0x00]) (.memBoundsFault 256 254) := by decide

/-- Vector HLT2, at the highest address HLT halts at. -/
theorem test_hlt : stepped (holding #v[0, 0, 0, 0, 0] 0xFE [0x01]) (fun t => (t.run, t.pc)) = some (.halted, 0xFF) := by decide

/-- Vector HLT3: not halted. -/
theorem test_hlt_beyond : stepped (holding #v[0, 0, 0, 0, 0] 0xFF [0x01]) (fun t => (t.run, t.err)) =
    some (.faulted, some (.memBoundsFault 256 255)) := by decide

/-- Vector DCD6: decoding comes before any bounds check. -/
theorem test_illegal : stepped (holding #v[0, 0, 0, 0, 0] 0xFF []) (fun t => (t.run, t.err)) = some (.faulted, some (.decodeFault 0x00 255)) := by decide

/-- Vector JMP4. -/
theorem test_operand_beyond : stepped (holding #v[0, 0, 0, 0, 0] 0xFF [0x54]) (fun t => (t.run, t.err)) = some (.faulted, some (.memBoundsFault 256 255)) := by decide

/-- Vector ADD2. -/
theorem test_add_wraps : stepped (holding #v[0xC8, 0x64, 0, 0, 0] 0x00 [0xA0, 0, 1]) (fun t => (t.reg 0, t.pc)) = some (0x2C, 3) := by decide

/-- Vector ADD3. -/
theorem test_add_same_register : stepped (holding #v[0, 0, 0x90, 0, 0] 0x00 [0xA0, 2, 2]) (fun t => (t.reg 2, t.pc)) = some (0x20, 3) := by decide

/-- Vector SUB2. -/
theorem test_sub_wraps : stepped (holding #v[0x03, 0x0A, 0, 0, 0] 0x00 [0xA1, 0, 1]) (fun t => (t.reg 0, t.pc)) = some (0xF9, 3) := by decide

/-- Vector SUB3. -/
theorem test_sub_same_register : stepped (holding #v[0, 0, 0, 0, 0x4D] 0x00 [0xA1, 4, 4]) (fun t => (t.reg 4, t.pc)) = some (0x00, 3) := by decide

/-- Vector MUL3. -/
theorem test_mul_low_byte : stepped (holding #v[0xFF, 0xFF, 0, 0, 0] 0x00 [0xA2, 0, 1]) (fun t => (t.reg 0, t.pc)) = some (0x01, 3) := by decide

/-- Vector MUL5. -/
theorem test_mul_square : stepped (holding #v[0, 0, 0, 0x14, 0] 0x00 [0xA2, 3, 3]) (fun t => (t.reg 3, t.pc)) = some (0x90, 3) := by decide

/-- Vector DIV7. -/
theorem test_div_unsigned : stepped (holding #v[0xC8, 0x80, 0, 0, 0] 0x00 [0xA3, 0, 1]) (fun t => (t.reg 0, t.pc)) = some (0x01, 3) := by decide

/-- Vector DIV5. -/
theorem test_div_by_zero : after (step (holding #v[3, 0, 0, 0, 0] 0x06 [0xA3, 0x00, 0x01])) =
    raised (holding #v[3, 0, 0, 0, 0] 0x06 [0xA3, 0x00, 0x01]) (.divideByZeroFault 6) := by decide

/-- Vector INC2. -/
theorem test_inc_wraps : stepped (holding #v[0xFF, 0, 0, 0, 0] 0x00 [0x65, 0x00]) (fun t => (t.reg 0, t.pc)) = some (0x00, 2) := by decide

/-- Vector DEC2. -/
theorem test_dec_wraps : stepped (holding #v[0, 0, 0, 0, 0] 0x00 [0x66, 0x00]) (fun t => (t.reg 0, t.pc)) = some (0xFF, 2) := by decide

/-- Vector CMP4. -/
theorem test_cmp_unsigned : stepped (holding #v[0x80, 0x7F, 0, 0, 0] 0x00 [0xA7, 0, 1]) (fun t => (t.fl, t.pc)) = some (0x02, 3) := by decide

/-- Vector CMP3: the old flags do not survive. -/
theorem test_cmp_equal_overwrites : stepped ((holding #v[7, 7, 0, 0, 0] 0x00 [0xA7, 0, 1]).setFl 0x04) (fun t => (t.fl, t.x)) =
    some (0x01, #v[7, 7, 0, 0, 0]) := by decide

/-- Vector JEQ5: no successor is needed. -/
theorem test_jeq_taken_at_254 : stepped ((holding #v[0x10, 0, 0, 0, 0] 0xFE [0x55, 0x00]).setFl 0x01) (fun t => (t.pc, t.run)) =
    some (0x10, .running) := by decide

/-- Vector JEQ2. -/
theorem test_jeq_untaken : stepped ((holding #v[0, 0, 0x30, 0, 0] 0x14 [0x55, 0x02]).setFl 0x04) (fun t => t.pc) = some 0x16 := by decide

/-- Vector JNE3. -/
theorem test_jne_taken_on_reset_flags : stepped (holding #v[0, 0, 0, 0x0C, 0] 0x14 [0x56, 0x03]) (fun t => (t.pc, t.fl)) = some (0x0C, 0x00) := by decide

/-- Vector JNE2. -/
theorem test_jne_untaken : stepped ((holding #v[0, 0, 0, 0x0C, 0] 0x14 [0x56, 0x03]).setFl 0x01) (fun t => t.pc) = some 0x16 := by decide

/-- Vector AND1. -/
theorem test_and : stepped (holding #v[0xF0, 0x3C, 0, 0, 0] 0x00 [0xA8, 0, 1]) (fun t => (t.reg 0, t.pc)) = some (0x30, 3) := by decide

/-- Vector OR1. -/
theorem test_or : stepped (holding #v[0xF0, 0x3C, 0, 0, 0] 0x00 [0xAA, 0, 1]) (fun t => (t.reg 0, t.pc)) = some (0xFC, 3) := by decide

/-- Vector XOR1. -/
theorem test_xor : stepped (holding #v[0xF0, 0x3C, 0, 0, 0] 0x00 [0xAB, 0, 1]) (fun t => (t.reg 0, t.pc)) = some (0xCC, 3) := by decide

/-- Vector NOT1: two bytes. -/
theorem test_not : stepped (holding #v[0x0F, 0, 0, 0, 0] 0x00 [0x69, 0x00]) (fun t => (t.reg 0, t.pc)) = some (0xF0, 2) := by decide

/-- Vector SHL6: the amount is the old value of the register shifted. -/
theorem test_shl_own_amount : stepped (holding #v[3, 0, 0, 0, 0] 0x00 [0xAC, 0, 0]) (fun t => (t.reg 0, t.pc)) = some (0x18, 3) := by decide

/-- Vector SHL5. -/
theorem test_shl_not_masked : stepped (holding #v[0xFF, 0xC8, 0, 0, 0] 0x00 [0xAC, 0, 1]) (fun t => (t.reg 0, t.pc)) = some (0x00, 3) := by decide

/-- Vector SHR1. -/
theorem test_shr_logical : stepped (holding #v[0x81, 0x01, 0, 0, 0] 0x00 [0xAD, 0, 1]) (fun t => (t.reg 0, t.pc)) = some (0x40, 3) := by decide

/-- Vector SHR3. -/
theorem test_shr_by_eight : stepped (holding #v[0xFF, 0x08, 0, 0, 0] 0x00 [0xAD, 0, 1]) (fun t => (t.reg 0, t.pc)) = some (0x00, 3) := by decide

/-- Vector PUSH2. -/
theorem test_push_deepest : stepped ((holding #v[0xAB, 0, 0, 0, 0] 0x10 [0x45, 0x00]).setSp 0x01) (fun t => (t.readByte 0x00, t.sp, t.pc)) =
    some (0xAB, 0x00, 0x12) := by decide

/-- Vector PUSH3: neither wraps nor clamps. -/
theorem test_push_below_zero : stepped ((holding #v[0xAB, 0, 0, 0, 0] 0x10 [0x45, 0x00]).setSp 0x00) (fun t => (t.readByte 0xFF, t.sp, t.err)) =
    some (0x00, 0x00, some (.memBoundsFault (-1) 16)) := by decide

/-- Vector POP1: the byte stays in memory. -/
theorem test_pop : stepped (((holding #v[0, 0, 0, 0, 0] 0x08 [0x46, 0x02]).setSp 0xF3).writeByte 0xF3 7)
    (fun t => (t.reg 2, t.sp, t.pc, t.readByte 0xF3)) = some (7, 0xF4, 0x0A, 7) := by decide

/-- Vector POP2. -/
theorem test_pop_empty : stepped ((holding #v[0, 0, 0, 0, 0] 0x08 [0x46, 0x02]).writeByte 0xF4 9) (fun t => (t.reg 2, t.err)) =
    some (0, some (.stackUnderflowFault 8 244)) := by decide

/-- Vector CALL5. -/
theorem test_call_largest_return : stepped (holding #v[0, 0x0B, 0, 0, 0] 0xFD [0x50, 0x01]) (fun t => (t.readByte 0xF3, t.sp, t.pc)) =
    some (0xFF, 0xF3, 0x0B) := by decide

/-- Vector PRI9. -/
theorem test_call_push_bounds_first : stepped ((holding #v[0, 0, 0, 0, 0] 0xFE [0x50, 0x00]).setSp 0x00) (fun t => t.err) = some (some (.memBoundsFault (-1) 254)) := by decide

/-- Vector RET3. -/
theorem test_ret_at_255 : stepped (((holding #v[0, 0, 0, 0, 0] 0xFF [0x11]).setSp 0xF3).writeByte 0xF3 0x20) (fun t => (t.pc, t.sp)) = some (0x20, 0xF4) := by decide

/-- Vector RET4. -/
theorem test_ret_empty : stepped (holding #v[0, 0, 0, 0, 0] 0xFF [0x11]) (fun t => t.err) = some (some (.stackUnderflowFault 255 244)) := by decide

/-- Vector JMP3. -/
theorem test_jmp_at_254 : stepped (holding #v[0x20, 0, 0, 0, 0] 0xFE [0x54, 0x00]) (fun t => (t.pc, t.run)) = some (0x20, .running) := by decide

/-- Vector PRI5. -/
theorem test_priority_operand_bytes_first : stepped (holding #v[0, 0, 0, 0, 0] 0xFE [0xA3, 0x08]) (fun t => t.err) = some (some (.memBoundsFault 256 254)) := by decide

/-! ## The host's side -/

/-- The step runs the placed instruction first after reset. -/
theorem test_with_fetch_word : stepped (State.reset.withFetchWord 24 0x050482) (fun t => (t.reg 4, t.pc)) = some (5, 3) := by
  decide

/-- From reset with nothing placed the first step is the DecodeFault of a zero byte (70_reset_and_hazards.md R212). -/
theorem test_first_step_from_reset : stepped State.reset (fun t => (t.run, t.err)) =
    some (.faulted, some (.decodeFault 0x00 0)) := by
  decide

/-- Printed as in the scenarios of 30_encoding.md R81. -/
theorem test_assembly_text : assemblyText (.ldi 0 5) = "LDI R0,5" ∧ assemblyText (.push 2) = "PUSH R2" ∧
    assemblyText .hlt = "HLT" := by
  decide

/-- Decimal, no padding (40 R99, vectors PRN1 and PRN2). -/
theorem test_output_lines : { State.reset with out := [15, 255, 0] }.outputLines = ["15", "255", "0"] := by decide

/-- The two ends of a run are told apart (60_exceptions.md R189, R180). -/
theorem test_run_end : State.reset.runEnd = none ∧ State.reset.halt.runEnd = some .successful ∧
    (State.reset.raise (.divideByZeroFault 6)).runEnd = some (.abnormal (some 3)) := by
  decide

/-- A stuck state has its own name. -/
theorem test_terminal_states : step State.reset.halt = .fault .stepWhileHalted ∧
    step (State.reset.raise (.divideByZeroFault 6)) = .fault .stepWhileFaulted :=
  ⟨rfl, rfl⟩

/-! ## Witnesses: states and operands that meet the hypotheses of each statement -/

/-- A canonical core in the middle of a run: `sp` one below the empty mark, one value on the stack, R4 = 1. -/
def busy (pc : Byte) : State := start #v[3, 4, 5, 6, 1] pc 0xF3 0x02 [(0xF3, 0x09)]

theorem witness_DecodeInvertsEncodeForEveryInjectiveMap : Function.Injective Config.opcodeMap := opcodeMap_injective

theorem witness_DecodedBytesAreTheEncoding : decode [0xA0, 0x00, 0x01, 0x07] = .ok (.add 0 1, [0x07]) := by decide

/-- At the last address an instruction of each length fits at. -/
theorem witness_StepRunsTheDecodedInstruction :
    ((holding #v[0, 0, 0, 0, 0] 0xFF [0x11]).run = .running ∧
      decode (bytesToTheTop (holding #v[0, 0, 0, 0, 0] 0xFF [0x11])) = .ok (.ret, [])) ∧
    ((holding #v[0, 0, 0, 0, 0] 0xFD [0x82, 4, 9]).run = .running ∧
      decode (bytesToTheTop (holding #v[0, 0, 0, 0, 0] 0xFD [0x82, 4, 9])) = .ok (.ldi 4 9, [])) := by
  decide

theorem witness_OpcodeByteIsLookedUpWhole :
    ((busy 0x00).run = .running ∧ ∀ m, Config.opcodeMap m ≠ (busy 0x00).readByte (busy 0x00).pc) ∧
    ((busy 0x00).pc = ((busy 0x00).setFl 0x01).pc ∧
      (∀ a, (busy 0x00).readByte a = ((busy 0x00).setFl 0x01).readByte a) ∧ busy 0x00 ≠ (busy 0x00).setFl 0x01) :=
  ⟨⟨rfl, fun m => by cases m <;> decide⟩, rfl, fun _ => rfl, by decide⟩

/-- The first operand byte past the top, and the second. -/
theorem witness_OperandByteBeyondMemoryFaults :
    (∃ s : State, s.run = .running ∧ lookup (s.readByte s.pc) = some .jmp ∧ 255 < s.pc.toNat + Mnemonic.jmp.nops) ∧
    (∃ s : State, s.run = .running ∧ lookup (s.readByte s.pc) = some .ldi ∧ 255 < s.pc.toNat + Mnemonic.ldi.nops ∧
      s.pc = 0xFE) :=
  ⟨⟨holding #v[0, 0, 0, 0, 0] 0xFF [0x54], by decide⟩, ⟨holding #v[0, 0, 0, 0, 0] 0xFE [0x82, 0], by decide⟩⟩

theorem witness_NothingFollowsAFault : ((busy 0x10).raise (.decodeFault 0 0x10)).run = .faulted ∧
    Steps (fun _ => True) ((busy 0x10).raise (.decodeFault 0 0x10)) ((busy 0x10).raise (.decodeFault 0 0x10)) :=
  ⟨rfl, .refl _⟩

theorem witness_TerminalStatesTakeNoStep : (busy 0x10).halt.run = .halted ∧
    ((busy 0x10).raise (.decodeFault 0 0x10)).run = .faulted ∧ (busy 0x10).halt.run ≠ .running ∧
    Steps (fun _ => True) (busy 0x10).halt (busy 0x10).halt :=
  ⟨rfl, rfl, by decide, .refl _⟩

theorem witness_RunningCoreAlwaysSteps : (busy 0x10).run = .running := rfl

theorem witness_FaultingStepChangesOnlyRunAndError :
    ∃ t, (busy 0x10).run = .running ∧ step (busy 0x10) = .next t ∧ t.run = .faulted :=
  ⟨(busy 0x10).raise (.decodeFault 0 0x10), rfl, rfl, rfl⟩

/-- A one-byte and a three-byte instruction, each at its highest address. -/
theorem witness_CompletedStepAdvancesPc :
    (∃ s t : State, s.run = .running ∧ step s = .next t ∧ t.run ≠ .faulted ∧ s.nextMnemonic = some .hlt ∧
      Mnemonic.hlt.ownsPc = false ∧ s.pc = 0xFE) ∧
    (∃ s t : State, s.run = .running ∧ step s = .next t ∧ t.run ≠ .faulted ∧ s.nextMnemonic = some .ldi ∧
      Mnemonic.ldi.ownsPc = false ∧ s.pc = 0xFC) :=
  ⟨⟨holding #v[0, 0, 0, 0, 0] 0xFE [0x01], _, rfl, rfl, by decide, by decide, rfl, rfl⟩,
    ⟨holding #v[0, 0, 0, 0, 0] 0xFC [0x82, 0, 1], _, rfl, rfl, by decide, by decide, rfl, rfl⟩⟩

/-- A step to HALTED, a step to FAULTED and a step that stays RUNNING. -/
theorem witness_RunEndsOnlyByHltOrFault :
    (∃ s t : State, s.run = .running ∧ step s = .next t ∧ t.run = .halted) ∧
    (∃ s t : State, s.run = .running ∧ step s = .next t ∧ t.run = .faulted) ∧
    (∃ s t : State, s.run = .running ∧ step s = .next t ∧ s.nextMnemonic ≠ some .hlt ∧ t.run ≠ .faulted) :=
  ⟨⟨holding #v[0, 0, 0, 0, 0] 0 [0x01], _, rfl, rfl, rfl⟩, ⟨busy 0x10, _, rfl, rfl, rfl⟩,
    ⟨holding #v[0, 0, 0, 0, 0] 0 [0x65, 0], _, rfl, rfl, by decide, by decide⟩⟩

/-- Fuel spent while still RUNNING, in a run that takes a step; and a run that has ended. -/
theorem witness_FuelledRunFollowsTheSteps :
    (∃ s t : State, step s = .next t ∧ (runFuel 1 s).run = .running ∧ runFuel 1 s ≠ s) ∧
    (runFuel 1 (busy 0x10)).run ≠ .running :=
  ⟨⟨holding #v[0, 0, 0, 0, 0] 0 [0x65, 0], _, rfl, by decide, by decide⟩, by decide⟩

theorem witness_InvariantKeptByEveryStep : ∃ t, Inv (busy 0xF3) ∧ step (busy 0xF3) = .next t :=
  ⟨_, ⟨by decide, by decide, by decide, by decide, by decide⟩, rfl⟩

/-- A PRN that prints, and an instruction that does not. -/
theorem witness_OutputOnlyGrowsByPrn :
    (∃ t, exec (.prn 4) (busy 0xFD) = .next t ∧ t.out = [1]) ∧ ∃ t, exec (.inc 4) (busy 0xFD) = .next t ∧ t.out = [] :=
  ⟨⟨_, rfl, rfl⟩, ⟨_, rfl, rfl⟩⟩

theorem witness_ErrorRecordIsWrittenOnce :
    ((busy 0x10).run = .running ∧ (busy 0x10).err = none ∧ ∃ t, step (busy 0x10) = .next t) ∧
    (((busy 0x10).raise (.decodeFault 0 0x10)).run = .faulted ∧
      Steps (fun _ => True) ((busy 0x10).raise (.decodeFault 0 0x10)) ((busy 0x10).raise (.decodeFault 0 0x10))) ∧
    ∃ t, exec (.push 7) (busy 0x10) = .next t :=
  ⟨⟨rfl, rfl, _, rfl⟩, ⟨rfl, .refl _⟩, _, rfl⟩

/-- One for each of the four clauses; the last with two different `fl`, neither of them Equal. -/
theorem witness_OnlyCmpWritesFlagsOnlyBranchesReadThem :
    (∃ t, exec (.add 0 1) (busy 0x10) = .next t ∧ ∀ a b, Instr.add 0 1 ≠ .cmp a b) ∧
    (∃ t, exec (.cmp 0 1) (busy 0xFC) = .next t ∧ t.run ≠ .faulted) ∧
    (∃ t, exec (.pop 4) (busy 0x10) = .next t ∧ (∀ a, Instr.pop 4 ≠ .jeq a) ∧ ∀ a, Instr.pop 4 ≠ .jne a) ∧
    (∃ t, exec (.jne 0) (busy 0x10) = .next t ∧
      ((0x04 : Byte) = Config.flagBits .eq ↔ (busy 0x10).fl = Config.flagBits .eq) ∧ (busy 0x10).fl ≠ 0x04) :=
  ⟨⟨_, rfl, by simp⟩, ⟨_, rfl, by decide⟩, ⟨_, rfl, by simp, by simp⟩, ⟨_, rfl, by decide, by decide⟩⟩

/-- A run of one step, over an instruction that is no compare. -/
theorem witness_FlagsPersistUntilTheNextCompare :
    ∃ t, Steps (fun u => u.nextMnemonic ≠ some .cmp) ((holding #v[0, 0, 0, 0, 0] 0x00 [0x65, 0x00]).setFl 0x01) t ∧
      t.reg 0 = 1 :=
  ⟨_, .step (by decide) rfl (.refl _), rfl⟩

/-- Equal when compared, and different by the time of the jump; then the unequal case, at the highest addresses of the
compare and of an untaken jump. -/
theorem witness_BranchTestsTheMostRecentCompare :
    (∃ s c t : State, s.pc.toNat ≤ 252 ∧ exec (.cmp 0 1) s = .next c ∧
      Steps (fun u => u.nextMnemonic ≠ some .cmp) c t ∧ s.reg 0 = s.reg 1 ∧ t.reg 0 ≠ t.reg 1 ∧ t.pc.toNat ≤ 253) ∧
    (∃ s c : State, s.pc.toNat = 252 ∧ exec (.cmp 0 1) s = .next c ∧
      Steps (fun u => u.nextMnemonic ≠ some .cmp) c c ∧ s.reg 0 ≠ s.reg 1) ∧
    (∃ s c : State, exec (.cmp 0 1) s = .next c ∧ Steps (fun u => u.nextMnemonic ≠ some .cmp) c c ∧
      s.reg 0 ≠ s.reg 1 ∧ c.pc.toNat = 253) :=
  ⟨⟨holding #v[7, 7, 0, 0, 0] 0x00 [0xA7, 0, 1, 0x65, 0], _, _, by decide, rfl, .step (by decide) rfl (.refl _),
      by decide, by decide, by decide⟩,
    ⟨busy 0xFC, _, by decide, rfl, .refl _, by decide⟩, ⟨busy 0xFA, _, rfl, .refl _, by decide, by decide⟩⟩

/-- A push from the lowest `sp`, a pop up to the empty mark, and an instruction that leaves `sp`. -/
theorem witness_StackPointerMovesByOne :
    (∃ t, exec (.push 0) ((busy 0x10).setSp 0x01) = .next t ∧ t.sp = 0x00) ∧
    (∃ t, exec .ret (busy 0x10) = .next t ∧ t.sp = 0xF4) ∧ ∃ t, exec (.jmp 0) (busy 0x10) = .next t ∧ t.sp = 0xF3 :=
  ⟨⟨_, rfl, rfl⟩, ⟨_, rfl, rfl⟩, ⟨_, rfl, rfl⟩⟩

/-- An instruction that stores nothing; a push, with an address that is not its own. -/
theorem witness_MemoryChangesOnlyAtThePushAddress :
    ((busy 0x10).mem.wf = true ∧ (∃ t, exec (.pop 0) (busy 0x10) = .next t) ∧ (∀ a, Instr.pop 0 ≠ .push a) ∧
      ∀ a, Instr.pop 0 ≠ .call a) ∧
    ((∃ t, exec (.push 0) (busy 0x10) = .next t) ∧ pushAddress (busy 0x10) ≠ .ok 0xF3) :=
  ⟨⟨by decide, ⟨_, rfl⟩, by simp, by simp⟩, ⟨_, rfl⟩, by decide⟩

theorem witness_OnlyTheDestinationRegisterChanges :
    ∃ t, exec (.add 0 1) (busy 0x10) = .next t ∧ destination (.add 0 1) ≠ some (BitVec.ofNat 8 (4 : Fin 5).val) :=
  ⟨_, rfl, by decide⟩

/-- Both sides of the equivalence: an instruction at its highest address, and one past it. -/
theorem witness_InstructionCompletesExactlyWhenItsChecksPass :
    ((busy 0xFC).run = .running ∧ (Instr.ldi 4 9).wellFormed = true ∧ OwnCheckPasses (.ldi 4 9) (busy 0xFC) ∧
      UsesSuccessor (.ldi 4 9) (busy 0xFC) ∧ (busy 0xFC).pc.toNat + (Instr.ldi 4 9).mnemonic.length ≤ 255) ∧
    ((busy 0xFD).run = .running ∧ ¬ (busy 0xFD).pc.toNat + (Instr.ldi 4 9).mnemonic.length ≤ 255) :=
  ⟨⟨rfl, by decide, trivial, trivial, by decide⟩, rfl, by decide⟩

/-- The lowest byte that names no register, as the first operand and as the second. -/
theorem witness_RegisterIndexFaultComesFirst :
    (Instr.div 5 255).regOperands.find? (fun w => decide (5 ≤ w.toNat)) = some 5 ∧
    (Instr.div 4 5).regOperands.find? (fun w => decide (5 ≤ w.toNat)) = some 5 := by
  decide

theorem witness_DivideByZeroIsRaisedByDivAlone :
    ((busy 0x10).setReg 4 0).reg ⟨(4 : Byte).toNat, by decide⟩ = 0 ∧
    (∃ t, exec (.div 0 4) ((busy 0x10).setReg 4 0) = .next t ∧ t.err = some (.divideByZeroFault 0x10)) ∧
    ((busy 0xFC).pc.toNat ≤ 252 ∧ Instr.not 4 ∈ [Instr.add 4 0, .sub 4 0, .mul 4 0, .inc 4, .dec 4, .and 4 0, .or 4 0,
      .xor 4 0, .not 4, .shl 4 0, .shr 4 0]) :=
  ⟨by decide, ⟨_, rfl, rfl⟩, by decide, by decide⟩

/-- The empty mark itself, and the highest value of the byte. -/
theorem witness_PopOfAnEmptyStackFaults : 0xF4 ≤ ((busy 0x10).setSp 0xF4).sp.toNat ∧ 0xF4 ≤ ((busy 0x10).setSp 0xFF).sp.toNat ∧
    (4 : Byte).toNat < 5 := by
  decide

theorem witness_PushBelowAddressZeroFaults : ((busy 0xFE).setSp 0).sp = 0 ∧ (4 : Byte).toNat < 5 := by decide

/-- At the lowest address where each length has no successor: HLT, PUSH, POP, an untaken JEQ, an untaken JNE and DIV. -/
theorem witness_SuccessorBeyondMemoryFaults :
    (Instr.hlt.wellFormed = true ∧ OwnCheckPasses .hlt (busy 0xFF) ∧ UsesSuccessor .hlt (busy 0xFF) ∧
      255 < (busy 0xFF).pc.toNat + Instr.hlt.mnemonic.length) ∧
    (OwnCheckPasses (.push 4) ((busy 0xFE).setSp 1) ∧ UsesSuccessor (.push 4) ((busy 0xFE).setSp 1) ∧
      255 < ((busy 0xFE).setSp 1).pc.toNat + (Instr.push 4).mnemonic.length) ∧
    (OwnCheckPasses (.pop 4) (busy 0xFE) ∧ UsesSuccessor (.jeq 4) (busy 0xFE) ∧
      UsesSuccessor (.jne 4) ((busy 0xFE).setFl 0x01)) ∧
    (OwnCheckPasses (.div 0 4) (busy 0xFD) ∧ 255 < (busy 0xFD).pc.toNat + (Instr.div 0 4).mnemonic.length) :=
  ⟨⟨by decide, trivial, trivial, by decide⟩, ⟨by simp [OwnCheckPasses], trivial, by decide⟩,
    ⟨by simp only [OwnCheckPasses]; decide, by simp only [UsesSuccessor]; decide, rfl⟩,
    by simp only [OwnCheckPasses]; decide, by decide⟩

/-- The hypotheses of LdiLoadsItsImmediate, AddIsModulo256, SubIsModulo256, MulKeepsTheLowByte, CmpSetsExactlyOneFlag,
BitwiseResultsBitByBit, ShlMovesBitsUp and ShrMovesBitsDown: the highest register and the highest address. -/
theorem witness_ThreeByteResults : (4 : Byte).toNat < 5 ∧ (0 : Byte).toNat < 5 ∧ (busy 0xFC).pc.toNat = 252 ∧
    (busy 0xFC).pc.toNat ≤ 252 := by
  decide

/-- The hypotheses of PrnAppendsTheRegister, IncAndDecMoveByOneModulo256, NotInvertsEveryBit and JmpGoesToTheRegister. -/
theorem witness_TwoByteResults : (4 : Byte).toNat < 5 ∧ (busy 0xFD).pc.toNat = 253 ∧ (busy 0xFD).pc.toNat ≤ 253 := by decide

theorem witness_HltHaltsAndAdvances : (busy 0xFE).pc.toNat = 254 ∧ (busy 0xFE).pc.toNat ≤ 254 := by decide

/-- The least divisor that is not 0. -/
theorem witness_DivIsTheFloorOfTheQuotient : (0 : Byte).toNat < 5 ∧ (4 : Byte).toNat < 5 ∧ (busy 0xFC).pc.toNat ≤ 252 ∧
    (busy 0xFC).reg 4 ≠ 0 ∧ (busy 0xFC).reg 4 = 1 := by
  decide

/-- For each of CMP's three outcomes, registers that have it. -/
theorem witness_CmpSetsExactlyOneFlag : (busy 0xFC).pc.toNat ≤ 252 ∧ (busy 0xFC).reg 4 = (busy 0xFC).reg 4 ∧
    ((busy 0xFC).reg 0).toNat < ((busy 0xFC).reg 1).toNat ∧ ((busy 0xFC).reg 4).toNat < ((busy 0xFC).reg 0).toNat := by
  decide

/-- Taken from 255, and untaken from 253 with the reset value of `fl`. -/
theorem witness_JeqJumpsWhenEqual : ((busy 0xFF).setFl 0x01).fl = 0x01 ∧ ((busy 0xFD).setFl 0x00).fl ≠ 0x01 ∧
    ((busy 0xFD).setFl 0x00).pc.toNat ≤ 253 ∧ (4 : Byte).toNat < 5 := by
  decide

/-- Taken from 255 on the reset value of `fl`, and untaken from 253. -/
theorem witness_JneJumpsWhenNotEqual : ((busy 0xFF).setFl 0x00).fl ≠ 0x01 ∧ ((busy 0xFD).setFl 0x01).fl = 0x01 ∧
    ((busy 0xFD).setFl 0x01).pc.toNat ≤ 253 ∧ (4 : Byte).toNat < 5 := by
  decide

/-- The hypotheses of PushStoresAtTheNewStackPointer and CallPushesTheReturnAddress, with the deepest stack. -/
theorem witness_PushAndCall : (4 : Byte).toNat < 5 ∧ ((busy 0xFD).setSp 1).mem.wf = true ∧
    1 ≤ ((busy 0xFD).setSp 1).sp.toNat ∧ ((busy 0xFD).setSp 1).pc.toNat ≤ 253 := by
  decide

/-- The hypotheses of PopLoadsFromTheStackPointer and RetJumpsToTheByteOnTop, with the shallowest stack and the deepest. -/
theorem witness_PopAndRet : (4 : Byte).toNat < 5 ∧ (busy 0xFD).sp.toNat = 0xF3 ∧ (busy 0xFD).sp.toNat < 0xF4 ∧
    ((busy 0xFD).setSp 0).sp.toNat < 0xF4 ∧ (busy 0xFD).pc.toNat ≤ 253 := by
  decide

/-- ADD then SUB at the highest pair of addresses; MUL by 1; INC then DEC at the highest pair. -/
theorem witness_ArithmeticIdentities :
    (∃ t u, (0 : Byte) ≠ 4 ∧ (busy 0xF9).pc.toNat = 249 ∧ exec (.add 0 4) (busy 0xF9) = .next t ∧
      exec (.sub 0 4) t = .next u) ∧
    (∃ t, (busy 0xFC).pc.toNat ≤ 252 ∧ (busy 0xFC).reg 4 = 1 ∧ exec (.mul 0 4) (busy 0xFC) = .next t) ∧
    (∃ t u, (busy 0xFB).pc.toNat = 251 ∧ exec (.inc 4) (busy 0xFB) = .next t ∧ exec (.dec 4) t = .next u) :=
  ⟨⟨_, _, by decide, by decide, rfl, rfl⟩, ⟨_, by decide, by decide, rfl⟩, ⟨_, _, by decide, rfl, rfl⟩⟩

/-- One for each clause, the shifts by the largest amount that they allow. -/
theorem witness_BitwiseLaws :
    (∃ t u, (busy 0xFB).pc.toNat ≤ 251 ∧ exec (.not 4) (busy 0xFB) = .next t ∧ exec (.not 4) t = .next u) ∧
    (∃ t u, (busy 0xF9).pc.toNat ≤ 249 ∧ exec (.xor 0 4) (busy 0xF9) = .next t ∧ exec (.xor 0 4) t = .next u) ∧
    (∃ s t u : State, s.pc.toNat ≤ 252 ∧ s.reg 1 = 7 ∧ exec (.shr 0 1) s = .next t ∧
      exec (.div 0 1) (s.setReg 1 (BitVec.ofNat 8 (2 ^ (s.reg 1).toNat))) = .next u) ∧
    (∃ s t u : State, s.pc.toNat ≤ 252 ∧ s.reg 1 = 7 ∧ exec (.shl 0 1) s = .next t ∧
      exec (.mul 0 1) (s.setReg 1 (BitVec.ofNat 8 (2 ^ (s.reg 1).toNat))) = .next u) :=
  ⟨⟨_, _, by decide, rfl, rfl⟩, ⟨_, _, by decide, rfl, rfl⟩,
    ⟨start #v[0x81, 7, 0, 0, 0] 0xFC 0xF4 0, _, _, by decide, by decide, rfl, rfl⟩,
    ⟨start #v[0x81, 7, 0, 0, 0] 0xFC 0xF4 0, _, _, by decide, by decide, rfl, rfl⟩⟩

/-- From the deepest stack a push can start from, and from the empty one. -/
theorem witness_PushThenPopRoundTrips : (4 : Byte).toNat < 5 ∧ (busy 0xFB).mem.wf = true ∧ (busy 0xFB).pc.toNat ≤ 251 ∧
    (1 ≤ ((busy 0xFB).setSp 0x01).sp.toNat ∧ ((busy 0xFB).setSp 0x01).sp.toNat ≤ 0xF4) ∧
    (1 ≤ ((busy 0xFB).setSp 0xF4).sp.toNat ∧ ((busy 0xFB).setSp 0xF4).sp.toNat ≤ 0xF4) := by
  decide

/-- The RET runs in another state, with other registers and another `pc`. -/
theorem witness_CallThenRetRoundTrips : ∃ t v : State, (4 : Byte).toNat < 5 ∧ (busy 0xFB).mem.wf = true ∧
    1 ≤ (busy 0xFB).sp.toNat ∧ (busy 0xFB).sp.toNat ≤ 0xF4 ∧ (busy 0xFB).pc.toNat ≤ 251 ∧
    exec (.call 4) (busy 0xFB) = .next t ∧ v.sp = t.sp ∧ v.readByte v.sp = t.readByte t.sp ∧ v ≠ t :=
  ⟨_, start #v[0, 0, 0, 0, 0] 0x40 0xF2 0x00 [(0xF2, 0xFD)], by decide, by decide, by decide, by decide, by decide, rfl,
    by decide, by decide, by decide⟩

/-- The longest program that fits, and the shortest that does not. -/
theorem witness_LaunchLoadsTheProgram : (List.replicate 256 (0x01 : Byte)).length ≤ 256 ∧
    256 < (List.replicate 257 (0x01 : Byte)).length := by
  simp only [List.length_replicate]
  decide

theorem witness_RegisterFileHasEightCells : 8 ≤ 8 := le_refl 8

end Sys2Proof.Tests
end

section
/-! What the instructions do with `fl` (10_state.md R28): what a change of `fl` before an instruction changes after it. -/

namespace Sys2Proof.Machine

/-! ## A chain of checks does not see `fl` -/

/-- Two chains whose first check is the same differ by a write to `fl` when what follows it does. -/
theorem check_bind_setFl {α : Type} {v : Byte} {x : Except FaultRecord α} {f g : α → Except FaultRecord State}
    (h : ∀ a, g a = (f a).map (State.setFl · v)) : (x >>= g) = (x >>= f).map (State.setFl · v) := by
  cases x with
  | ok a => exact h a
  | error e => rfl

/-- When the commit only carries another `fl` along, so does the completed step; a fault carries it too. -/
theorem complete_setFl {s t : State} {v : Byte} {x y : Except FaultRecord State} (h : complete s x = .next t)
    (hy : y = x.map (State.setFl · v)) : complete (s.setFl v) y = .next (t.setFl v) := by
  subst hy
  rcases complete_cases h with rfl | ⟨e, rfl, rfl⟩ <;> rfl

/-! ## The shapes that write no `fl` -/

theorem binaryForm_setFl (f : Byte → Byte → Byte) (a b : Byte) (s : State) (v : Byte) :
    binaryForm f a b (s.setFl v) = (binaryForm f a b s).map (State.setFl · v) :=
  check_bind_setFl fun _ => check_bind_setFl fun _ => check_bind_setFl fun _ => rfl

theorem unaryForm_setFl (f : Byte → Byte) (a : Byte) (s : State) (v : Byte) :
    unaryForm f a (s.setFl v) = (unaryForm f a s).map (State.setFl · v) :=
  check_bind_setFl fun _ => check_bind_setFl fun _ => rfl

/-- Once it is known whether the jump is taken, a branch does not see `fl`. -/
theorem branchForm_setFl (taken : Bool) (a : Byte) (s : State) (v : Byte) :
    branchForm taken a (s.setFl v) = (branchForm taken a s).map (State.setFl · v) :=
  check_bind_setFl fun _ =>
    match taken with
    | true => rfl
    | false => check_bind_setFl fun _ => rfl

/-! ## The instructions -/

/-- An instruction that is neither CMP nor a conditional jump neither reads nor writes `fl`. -/
theorem exec_setFl {i : Instr} {s t : State} (v : Byte) (hcmp : ∀ a b, i ≠ .cmp a b) (hjeq : ∀ a, i ≠ .jeq a)
    (hjne : ∀ a, i ≠ .jne a) (h : exec i s = .next t) : exec i (s.setFl v) = .next (t.setFl v) := by
  cases i with
  | cmp a b => exact absurd rfl (hcmp a b)
  | jeq a => exact absurd rfl (hjeq a)
  | jne a => exact absurd rfl (hjne a)
  | hlt => exact complete_setFl h (check_bind_setFl fun _ => rfl)
  | ret => exact complete_setFl h (check_bind_setFl fun _ => rfl)
  | jmp a => exact complete_setFl h (check_bind_setFl fun _ => rfl)
  | prn a => exact complete_setFl h (check_bind_setFl fun _ => check_bind_setFl fun _ => rfl)
  | ldi a imm => exact complete_setFl h (check_bind_setFl fun _ => check_bind_setFl fun _ => rfl)
  | push a =>
    exact complete_setFl h (check_bind_setFl fun _ => check_bind_setFl fun _ => check_bind_setFl fun _ => rfl)
  | pop a =>
    exact complete_setFl h (check_bind_setFl fun _ => check_bind_setFl fun _ => check_bind_setFl fun _ => rfl)
  | call a =>
    exact complete_setFl h (check_bind_setFl fun _ => check_bind_setFl fun _ => check_bind_setFl fun _ => rfl)
  | div a b =>
    exact complete_setFl h (check_bind_setFl fun _ => check_bind_setFl fun _ => check_bind_setFl fun _ =>
      check_bind_setFl fun _ => rfl)
  | inc a => exact complete_setFl h (unaryForm_setFl Alu.inc a s v)
  | dec a => exact complete_setFl h (unaryForm_setFl Alu.dec a s v)
  | not a => exact complete_setFl h (unaryForm_setFl Alu.not a s v)
  | add a b => exact complete_setFl h (binaryForm_setFl Alu.add a b s v)
  | sub a b => exact complete_setFl h (binaryForm_setFl Alu.sub a b s v)
  | mul a b => exact complete_setFl h (binaryForm_setFl Alu.mul a b s v)
  | and a b => exact complete_setFl h (binaryForm_setFl Alu.and a b s v)
  | or a b => exact complete_setFl h (binaryForm_setFl Alu.or a b s v)
  | xor a b => exact complete_setFl h (binaryForm_setFl Alu.xor a b s v)
  | shl a b => exact complete_setFl h (binaryForm_setFl Alu.shl a b s v)
  | shr a b => exact complete_setFl h (binaryForm_setFl Alu.shr a b s v)

/-- A CMP that completes forgets the `fl` it found, because its commit overwrites the whole byte; one that faults
leaves `fl` alone. -/
theorem exec_cmp_setFl {a b : Byte} {s t : State} (v : Byte) (h : exec (.cmp a b) s = .next t) :
    exec (.cmp a b) (s.setFl v) = .next t ∨
      t.run = .faulted ∧ exec (.cmp a b) (s.setFl v) = .next (t.setFl v) := by
  rcases complete_cases h with hc | ⟨e, he, rfl⟩
  · exact .inl (congrArg (complete (s.setFl v)) hc)
  · exact .inr ⟨rfl, congrArg (complete (s.setFl v)) he⟩

/-- A conditional jump sees of `fl` only whether it is Equal. -/
theorem exec_branch_setFl {i : Instr} {a v : Byte} {s t : State} (hi : i = .jeq a ∨ i = .jne a)
    (h : exec i s = .next t) (hv : (s.setFl v).flagEqual = s.flagEqual) :
    exec i (s.setFl v) = .next (t.setFl v) := by
  rcases hi with rfl | rfl
  · exact complete_setFl h (by rw [hv, branchForm_setFl])
  · exact complete_setFl h (by rw [hv, branchForm_setFl])

/-- Only CMP writes `fl`. -/
theorem exec_fl {i : Instr} {s t : State} (hcmp : ∀ a b, i ≠ .cmp a b) (h : exec i s = .next t) : t.fl = s.fl := by
  cases exec_effect h with
  | cmp _ _ _ => exact absurd rfl (hcmp _ _)
  | _ => rfl

end Sys2Proof.Machine

namespace Sys2Proof.Proofs

open Sys2Proof.Machine Sys2Proof.Claims

/-- Settles O21: a case analysis of what `exec` can do for the writer, and for the readers one lemma per way an
instruction treats a changed `fl`: it carries it along, overwrites it (CMP), or tests it for Equal (JEQ and JNE). -/
theorem onlyCmpWritesFlagsOnlyBranchesReadThem : Obligations.OnlyCmpWritesFlagsOnlyBranchesReadThem := by
  refine ⟨fun i s t h hcmp => exec_fl hcmp h, fun a b s t v h hrun => ?_, fun i s t v h hjeq hjne => ?_,
    fun i a s t v hi h hv => ?_⟩
  · rcases exec_cmp_setFl v h with hsame | ⟨hfault, -⟩
    · exact hsame
    · exact absurd hfault hrun
  · by_cases hcmp : ∃ a b, i = .cmp a b
    · obtain ⟨a, b, rfl⟩ := hcmp
      rcases exec_cmp_setFl v h with hsame | ⟨-, hcarried⟩
      · exact ⟨t, hsame, rfl⟩
      · exact ⟨t.setFl v, hcarried, rfl⟩
    · exact ⟨t.setFl v, exec_setFl v (fun a b hab => hcmp ⟨a, b, hab⟩) hjeq hjne h, rfl⟩
  · exact ⟨t.setFl v, exec_branch_setFl hi h (decide_eq_decide.2 hv), rfl⟩

end Sys2Proof.Proofs
end

section
/-! The opcode table's rows (30_encoding.md R72, R73, R76), and what the fetch reads (40 R91, R92): a miss of the lookup,
and the part of the state that a fetch depends on. -/

namespace Sys2Proof

/-! ## The rows of the table -/

theorem Mnemonic.nops_le_two (m : Mnemonic) : m.nops ≤ 2 := by cases m <;> decide

/-- The rows that own `pc` are the jumps, the call and the return. -/
theorem Mnemonic.ownsPc_iff (m : Mnemonic) :
    m.ownsPc = true ↔ m ∈ [Mnemonic.jmp, .jeq, .jne, .call, .ret] := by
  cases m <;> decide

/-! ## The lookup of the machine's own table -/

/-- A hit: the lookup of a row's byte is that row. -/
@[simp] theorem lookup_opcodeMap (m : Mnemonic) : lookup (Config.opcodeMap m) = some m :=
  lookupWith_map opcodeMap_injective m

/-- A miss: the lookup fails exactly on a byte that is no row's. -/
theorem lookup_eq_none_iff {op : Byte} : lookup op = none ↔ ∀ m, Config.opcodeMap m ≠ op :=
  ⟨lookupWith_none, fun h => List.find?_eq_none.2 fun m _ => by simpa using h m⟩

/-- An opcode byte that the lookup misses is refused by its value, whatever follows it. -/
theorem decode_of_lookup_none {op : Byte} (h : lookup op = none) (rest : List Byte) :
    decode (op :: rest) = .error (.unknownOpcode op) := by
  unfold lookup at h
  simp only [decode, decodeWith, h]

namespace Machine

/-! ## A fetch that misses -/

/-- An unknown opcode byte stands alone (30_encoding.md R78). -/
theorem State.fetchBytes_of_lookup_none {s : State} (h : lookup (s.readByte s.pc) = none) :
    s.fetchBytes = [s.readByte s.pc] := by
  have hlen : fetchLength (s.readByte s.pc) = 1 := by rw [fetchLength, h]
  have hpc : s.pc.toNat < Config.memSize := s.pc.isLt
  rw [State.fetchBytes, hlen, State.bytesFrom, if_pos hpc]
  rfl

/-- A miss raises DecodeFault with the byte and its address (40 R92). -/
theorem State.fetch_of_lookup_none {s : State} (h : lookup (s.readByte s.pc) = none) :
    s.fetch = .error (.decodeFault (s.readByte s.pc) s.pc) := by
  rw [State.fetch, State.fetchBytes_of_lookup_none h, decode_of_lookup_none h]
  rfl

/-- A fault of the fetch is all that its step does. -/
theorem step_of_fetch_error {s : State} {e : FaultRecord} (hrun : s.run = .running) (h : s.fetch = .error e) :
    step s = .next (s.raise e) := by
  simp only [step, hrun, h]

/-! ## What a fetch depends on: `pc` and the contents of memory -/

/-- Every address below 256 is a byte, so what memory holds there is what `readByte` reads. -/
theorem State.mem_read_eq_readByte (s : State) {a : Nat} (h : a < 256) :
    s.mem.read a = s.readByte (BitVec.ofNat 8 a) := by
  rw [State.readByte, BitVec.toNat_ofNat, Nat.mod_eq_of_lt h]

/-- The record a failed decoding raises holds nothing of the state but `pc`. -/
theorem fetchFault_congr {s t : State} (hpc : s.pc = t.pc) : fetchFault s = fetchFault t := by
  funext e
  cases e <;> simp only [fetchFault, hpc]

section
variable {s t : State} (hpc : s.pc = t.pc) (hmem : ∀ a : Byte, s.readByte a = t.readByte a)
include hmem

theorem State.bytesFrom_congr (a n : Nat) : s.bytesFrom a n = t.bytesFrom a n := by
  rw [State.bytesFrom_eq, State.bytesFrom_eq]
  refine List.map_congr_left fun k hk => ?_
  have hlt : a + k < 256 := by
    have := List.mem_range.1 hk
    omega
  rw [s.mem_read_eq_readByte hlt, t.mem_read_eq_readByte hlt, hmem]

include hpc

theorem State.fetchBytes_congr : s.fetchBytes = t.fetchBytes := by
  rw [State.fetchBytes, State.fetchBytes, hpc, hmem, State.bytesFrom_congr hmem]

theorem State.fetch_congr : s.fetch = t.fetch := by
  rw [State.fetch, State.fetch, State.fetchBytes_congr hpc hmem, fetchFault_congr hpc]

end

end Machine

end Sys2Proof

namespace Sys2Proof.Proofs

open Sys2Proof.Machine Sys2Proof.Claims

/-- Settles O8: a hit by the injectivity of the opcode map, a miss through the one byte that is then fetched, and the
rest because the fetched bytes and the record of a fault are functions of `pc` and of what memory holds. -/
theorem opcodeByteIsLookedUpWhole : Obligations.OpcodeByteIsLookedUpWhole := by
  refine ⟨fun m => ⟨lookup_opcodeMap m, m.nops_le_two, rfl, m.ownsPc_iff⟩, fun s hrun hmiss => ?_,
    fun s t hpc hmem => State.fetch_congr hpc hmem⟩
  exact step_of_fetch_error hrun (State.fetch_of_lookup_none (lookup_eq_none_iff.2 hmiss))

end Sys2Proof.Proofs
end

section
/-! Faults and what follows them (60_exceptions.md R183, R190): who raises DivideByZeroFault, which arithmetic always
completes, and that a core which is not RUNNING goes nowhere. -/

namespace Sys2Proof.Machine

/-! ## A terminal state -/

/-- A core that is not RUNNING has no next state (40 R90). -/
theorem step_ne_next_of_terminal {s : State} (h : s.run ≠ .running) (t : State) : step s ≠ .next t :=
  fun hs => h (step_next hs).1

/-- Every run from a core that is not RUNNING is the empty run. -/
theorem Steps.eq_of_terminal {P : State → Prop} {s t : State} (h : s.run ≠ .running) (hst : Steps P s t) : t = s := by
  cases hst with
  | refl _ => rfl
  | step _ taken _ => exact absurd taken (step_ne_next_of_terminal h _)

/-! ## The error record after an instruction -/

/-- An instruction writes the error record only by raising, and then for one of its causes (60_exceptions.md R188). -/
theorem Effect.err_cases {s t : State} {i : Instr} (h : Effect s i t) :
    t.err = s.err ∨ ∃ e, FaultCause s i e ∧ t.err = some e := by
  cases h with
  | raise cause => exact .inr ⟨_, cause, rfl⟩
  | _ => exact .inl rfl

/-- The one cause of a DivideByZeroFault is the divisor of a DIV, and the address it records is the DIV's. -/
theorem FaultCause.eq_div_of_divideByZero {s : State} {i : Instr} {p : Byte} (h : FaultCause s i (.divideByZeroFault p)) :
    ∃ a b j, i = .div a b ∧ regOperand b s = .ok j ∧ s.reg j = 0 ∧ p = s.pc := by
  cases h with
  | divisor a b j named zero => exact ⟨a, b, j, rfl, named, zero, rfl⟩

/-- DIV of two registers with a divisor of 0 raises before it looks at its successor (60_exceptions.md R187). -/
theorem exec_div_of_zero {s : State} {a b : Byte} (ha : a.toNat < Config.ngpr) (hb : b.toNat < Config.ngpr)
    (h0 : s.reg ⟨b.toNat, hb⟩ = 0) : exec (.div a b) s = .next (s.raise (.divideByZeroFault s.pc)) := by
  simp only [exec, execDiv, regOperand_ok s ha, regOperand_ok s hb, h0, nonzeroDivisor, if_pos, check_ok_bind,
    check_error_bind, complete_error]

/-! ## The instructions with no check of their own -/

theorem BinaryOp.exec_eq {i : Instr} {f : Byte → Byte → Byte} {a b : Byte} (op : BinaryOp i f a b) (s : State) :
    exec i s = complete s (binaryForm f a b s) := by
  cases op <;> rfl

theorem UnaryOp.exec_eq {i : Instr} {f : Byte → Byte} {a : Byte} (op : UnaryOp i f a) (s : State) :
    exec i s = complete s (unaryForm f a s) := by
  cases op <;> rfl

/-- With two registers and a successor, a read-modify-write of format RR commits, whatever the values. -/
theorem BinaryOp.exec_completes {i : Instr} {f : Byte → Byte → Byte} {a b : Byte} (op : BinaryOp i f a b) {s : State}
    (ha : a.toNat < Config.ngpr) (hb : b.toNat < Config.ngpr) (hpc : s.pc.toNat + 3 < Config.memSize) :
    exec i s = .next ((s.setReg ⟨a.toNat, ha⟩ (f (s.reg ⟨a.toNat, ha⟩) (s.reg ⟨b.toNat, hb⟩))).setPc
      (BitVec.ofNat 8 (s.pc.toNat + 3))) := by
  rw [op.exec_eq, binaryForm, regOperand_ok s ha, regOperand_ok s hb, successor_ok hpc]
  rfl

/-- With a register and a successor, a read-modify-write of format R commits, whatever the value. -/
theorem UnaryOp.exec_completes {i : Instr} {f : Byte → Byte} {a : Byte} (op : UnaryOp i f a) {s : State}
    (ha : a.toNat < Config.ngpr) (hpc : s.pc.toNat + 2 < Config.memSize) :
    exec i s = .next ((s.setReg ⟨a.toNat, ha⟩ (f (s.reg ⟨a.toNat, ha⟩))).setPc (BitVec.ofNat 8 (s.pc.toNat + 2))) := by
  rw [op.exec_eq, unaryForm, regOperand_ok s ha, successor_ok hpc]
  rfl

/-- The arithmetic and bitwise instructions other than DIV are the read-modify-writes with no check of their own. -/
theorem binaryOp_or_unaryOp_of_mem {i : Instr} {a b : Byte}
    (h : i ∈ [Instr.add a b, .sub a b, .mul a b, .inc a, .dec a, .and a b, .or a b, .xor a b, .not a, .shl a b,
      .shr a b]) : (∃ f, BinaryOp i f a b) ∨ ∃ f, UnaryOp i f a := by
  simp only [List.mem_cons, List.not_mem_nil, or_false] at h
  rcases h with rfl | rfl | rfl | rfl | rfl | rfl | rfl | rfl | rfl | rfl | rfl
  · exact .inl ⟨_, .add a b⟩
  · exact .inl ⟨_, .sub a b⟩
  · exact .inl ⟨_, .mul a b⟩
  · exact .inr ⟨_, .inc a⟩
  · exact .inr ⟨_, .dec a⟩
  · exact .inl ⟨_, .and a b⟩
  · exact .inl ⟨_, .or a b⟩
  · exact .inl ⟨_, .xor a b⟩
  · exact .inr ⟨_, .not a⟩
  · exact .inl ⟨_, .shl a b⟩
  · exact .inl ⟨_, .shr a b⟩

end Sys2Proof.Machine

namespace Sys2Proof.Proofs

open Sys2Proof.Machine Sys2Proof.Claims

/-- An operand that names a register has that register's value. -/
theorem valueOf_eq_reg {s : State} {b : Byte} {j : Fin Config.ngpr} (h : regOperand b s = .ok j) :
    valueOf s b = s.reg j := by
  rcases regOperand_cases b s with ⟨hb, hok⟩ | ⟨-, herr⟩
  · obtain rfl : ⟨b.toNat, hb⟩ = j := Except.ok.inj (hok.symm.trans h)
    exact dif_pos hb
  · rw [herr] at h
    cases h

/-- Settles O29: DIV's own check gives the fault, the list of fault causes that no other instruction has it, and the
other instructions commit because their only checks are their register operands and their successor. -/
theorem divideByZeroIsRaisedByDivAlone : Obligations.DivideByZeroIsRaisedByDivAlone := by
  refine ⟨fun s a b ha hb h0 => exec_div_of_zero ha hb h0, fun i s t p h herr => ?_, fun i s a b ha hb hpc hi => ?_⟩
  · rcases (exec_effect h).err_cases with hkept | ⟨e, cause, he⟩
    · exact .inl hkept
    · obtain rfl : e = .divideByZeroFault p := Option.some.inj (he.symm.trans herr)
      obtain ⟨a, b, j, rfl, named, zero, hp⟩ := cause.eq_div_of_divideByZero
      exact .inr ⟨a, b, rfl, (valueOf_eq_reg named).trans zero, hp⟩
  · rcases binaryOp_or_unaryOp_of_mem hi with ⟨f, op⟩ | ⟨f, op⟩
    · exact ⟨_, op.exec_completes ha hb (by unfold Config.memSize; omega), rfl, rfl⟩
    · exact ⟨_, op.exec_completes ha (by unfold Config.memSize; omega), rfl, rfl⟩

/-- Settles O10: a FAULTED core is not RUNNING, so it has no next state and no run but the empty one; the host's reset
writes RUNNING. -/
theorem nothingFollowsAFault : Obligations.NothingFollowsAFault := by
  intro s hfault
  have hterminal : s.run ≠ .running := by
    rw [hfault]
    decide
  exact ⟨step_ne_next_of_terminal hterminal, fun _ _ => Steps.eq_of_terminal hterminal, rfl⟩

end Sys2Proof.Proofs
end

section
/-! The round trip of decoding and encoding (30_encoding.md R71, R73, R76), and the closed set of opcode bytes (R78). -/

namespace Sys2Proof

/-! ## Operands -/

/-- An instruction has as many operand bytes as its row says. -/
theorem Instr.operandBytes_length (i : Instr) : i.operandBytes.length = i.mnemonic.nops := by
  cases i <;> rfl

theorem encode_length (i : Instr) : (encode i).length = i.mnemonic.length := by
  simp only [encode, encodeWith, List.length_cons, i.operandBytes_length, Mnemonic.length]
  omega

/-- The operands of a row are read back from its instructions, whatever follows them. -/
theorem decodeOperands_operandBytes (i : Instr) (rest : List Byte) :
    decodeOperands i.mnemonic (i.operandBytes ++ rest) = .ok (i, rest) := by
  cases i <;> rfl

theorem oneOperand_error {make : Byte → Instr} {bytes : List Byte} {e : DecodeError}
    (h : oneOperand make bytes = .error e) : e = .missingByte (bytes.length + 1) := by
  match bytes, h with
  | [], h =>
    cases h
    rfl

theorem twoOperands_error {make : Byte → Byte → Instr} {bytes : List Byte} {e : DecodeError}
    (h : twoOperands make bytes = .error e) : e = .missingByte (bytes.length + 1) := by
  match bytes, h with
  | [], h | [_], h =>
    cases h
    rfl

/-- Once the row is known, the only error is that the bytes end, and it names the first byte that is not there. -/
theorem decodeOperands_error {m : Mnemonic} {bytes : List Byte} {e : DecodeError}
    (h : decodeOperands m bytes = .error e) : e = .missingByte (bytes.length + 1) := by
  cases m with
  | hlt | ret => cases h
  | push | pop | prn | call | jmp | jeq | jne | inc | dec | not => exact oneOperand_error h
  | ldi | add | sub | mul | div | cmp | and | or | xor | shl | shr => exact twoOperands_error h

/-- Too few bytes for a row: the first byte that is not there is missing. -/
theorem decodeOperands_of_short {m : Mnemonic} {bytes : List Byte} (h : bytes.length < m.nops) :
    decodeOperands m bytes = .error (.missingByte (bytes.length + 1)) := by
  cases hd : decodeOperands m bytes with
  | error e => rw [decodeOperands_error hd]
  | ok p =>
    obtain ⟨rfl, hbytes⟩ := decodeOperands_ok hd
    rw [hbytes, List.length_append, p.1.operandBytes_length] at h
    omega

/-! ## The opcode byte -/

/-- An opcode byte that the lookup finds leaves the operands to be read. -/
theorem decode_of_lookup_some {op : Byte} {m : Mnemonic} (h : lookup op = some m) (rest : List Byte) :
    decode (op :: rest) = decodeOperands m rest := by
  unfold lookup at h
  simp only [decode, decodeWith, h]

/-- The first byte of what decodes is the opcode of a row, and the other bytes are read under that row. -/
theorem decode_ok {bytes rest : List Byte} {i : Instr} (h : decode bytes = .ok (i, rest)) :
    ∃ op more, bytes = op :: more ∧ lookup op = some i.mnemonic ∧ more = i.operandBytes ++ rest := by
  cases bytes with
  | nil => cases h
  | cons op more =>
    cases hl : lookup op with
    | none =>
      rw [decode_of_lookup_none hl] at h
      cases h
    | some m =>
      rw [decode_of_lookup_some hl] at h
      obtain ⟨rfl, hmore⟩ := decodeOperands_ok h
      exact ⟨op, more, rfl, hl, hmore⟩

/-- Decoding refuses an opcode byte by its value exactly when the lookup misses it. -/
theorem decode_unknownOpcode_iff {op : Byte} {rest : List Byte} :
    decode (op :: rest) = .error (.unknownOpcode op) ↔ lookup op = none := by
  refine ⟨fun h => ?_, fun h => decode_of_lookup_none h rest⟩
  cases hl : lookup op with
  | none => rfl
  | some m =>
    rw [decode_of_lookup_some hl] at h
    cases decodeOperands_error h

/-! ## The round trip -/

theorem decodeWith_encodeWith {map : Mnemonic → Byte} (hmap : Function.Injective map) (i : Instr) (rest : List Byte) :
    decodeWith map (encodeWith map i ++ rest) = .ok (i, rest) := by
  simp only [encodeWith, List.cons_append, decodeWith, lookupWith_map hmap, decodeOperands_operandBytes]

theorem decode_encode (i : Instr) (rest : List Byte) : decode (encode i ++ rest) = .ok (i, rest) :=
  decodeWith_encodeWith opcodeMap_injective i rest

theorem eq_encode_of_decode {bytes rest : List Byte} {i : Instr} (h : decode bytes = .ok (i, rest)) :
    bytes = encode i ++ rest := by
  obtain ⟨op, more, rfl, hop, rfl⟩ := decode_ok h
  rw [← lookupWith_some hop]
  rfl

end Sys2Proof

namespace Sys2Proof.Proofs

open Sys2Proof.Machine Sys2Proof.Claims

/-- Settles O1: the lookup of a row's byte is that row because the map has no repeats, and under the right row the
operand bytes are read back one for one. -/
theorem decodeInvertsEncodeForEveryInjectiveMap : Obligations.DecodeInvertsEncodeForEveryInjectiveMap :=
  fun _ hmap => decodeWith_encodeWith hmap

/-- Settles O2: the machine's own opcode map has no repeats. -/
theorem decodeInvertsEncode : Obligations.DecodeInvertsEncode := decode_encode

/-- Settles O3: the opcode byte is the looked up row's, and the operand bytes are the instruction's. -/
theorem decodedBytesAreTheEncoding : Obligations.DecodedBytesAreTheEncoding :=
  fun _ _ _ => eq_encode_of_decode

/-- Settles O4: seven closed words, decoded. -/
theorem tableWordsDecode : Obligations.TableWordsDecode := by
  unfold Obligations.TableWordsDecode
  decide


/-- Settles O5: a refusal by value is a miss of the lookup, and the list of R78 holds the rows' opcode bytes. -/
theorem exactlyTheUnlistedOpcodesAreIllegal : Obligations.ExactlyTheUnlistedOpcodesAreIllegal := by
  intro op rest
  rw [decode_unknownOpcode_iff, lookup_eq_none_iff]
  have hlist : Mnemonic.all.map Config.opcodeMap = [0x01, 0x11, 0x45, 0x46, 0x47, 0x50, 0x54, 0x55, 0x56, 0x65, 0x66,
      0x69, 0x82, 0xA0, 0xA1, 0xA2, 0xA3, 0xA7, 0xA8, 0xAA, 0xAB, 0xAC, 0xAD] := by decide
  rw [← hlist]
  simp [Mnemonic.mem_all]

/-- Settles O6: the bits of each row's opcode byte. -/
theorem opcodeBytesCarryTheMetadata : Obligations.OpcodeBytesCarryTheMetadata := by
  intro m
  cases m <;> decide

end Sys2Proof.Proofs
end

section
/-! The fetch of an instruction that decodes, and of one that memory ends within (40 R91 to R93); the step of a running
core and of a terminal one (R90, R102); and runs under fuel (70 R207). -/

namespace Sys2Proof.Machine

open Sys2Proof.Claims

/-! ## What is fetched -/

theorem fetchLength_of_lookup {op : Byte} {m : Mnemonic} (h : lookup op = some m) : fetchLength op = m.length := by
  rw [fetchLength, h]

/-- The opcode byte always exists, and a row's operand bytes follow it as far as memory reaches. -/
theorem State.fetchBytes_of_lookup_some {s : State} {m : Mnemonic} (h : lookup (s.readByte s.pc) = some m) :
    s.fetchBytes = s.readByte s.pc :: s.bytesFrom (s.pc.toNat + 1) m.nops := by
  have hlen : fetchLength (s.readByte s.pc) = m.nops + 1 := (fetchLength_of_lookup h).trans (Nat.add_comm 1 _)
  have hpc : s.pc.toNat < Config.memSize := s.pc.isLt
  rw [State.fetchBytes, hlen, State.bytesFrom, if_pos hpc]
  rfl

theorem State.bytesFrom_length (s : State) (a n : Nat) : (s.bytesFrom a n).length = min n (256 - a) := by
  rw [State.bytesFrom_eq, List.length_map, List.length_range]

/-- Reading from `pc` upward gives the first bytes of memory from `pc` to the top. -/
theorem State.bytesFrom_pc_eq_take (s : State) (n : Nat) :
    s.bytesFrom s.pc.toNat n = (bytesToTheTop s).take n := by
  rw [State.bytesFrom_eq, bytesToTheTop, ← List.map_take, List.take_range]
  refine List.map_congr_left fun k hk => s.mem_read_eq_readByte ?_
  have := List.mem_range.1 hk
  omega

/-- The first byte from `pc` to the top is the opcode byte. -/
theorem bytesToTheTop_head? (s : State) : (bytesToTheTop s).head? = some (s.readByte s.pc) := by
  have hpos : 0 < 256 - s.pc.toNat := by
    have := s.pc.isLt
    omega
  rw [List.head?_eq_getElem?, bytesToTheTop, List.getElem?_map, List.getElem?_range hpos]
  simp

/-! ## The instruction that is fetched -/

/-- A fetch that succeeds gives an instruction of the row the opcode byte selects. -/
theorem State.nextMnemonic_of_fetch {s : State} {i : Instr} (h : s.fetch = .ok i) :
    s.nextMnemonic = some i.mnemonic := by
  cases hl : lookup (s.readByte s.pc) with
  | none =>
    rw [State.fetch_of_lookup_none hl] at h
    cases h
  | some m =>
    rw [State.fetch, State.fetchBytes_of_lookup_some hl, decode_of_lookup_some hl] at h
    cases hd : decodeOperands m (s.bytesFrom (s.pc.toNat + 1) m.nops) with
    | error e =>
      rw [hd] at h
      cases h
    | ok p =>
      rw [hd] at h
      cases h
      rw [State.nextMnemonic, hl, (decodeOperands_ok hd).1]

/-- Whatever decodes from `pc` to the top is what is fetched: no byte beyond the instruction's own is wanted. -/
theorem State.fetch_of_decode {s : State} {i : Instr} {rest : List Byte}
    (h : decode (bytesToTheTop s) = .ok (i, rest)) : s.fetch = .ok i := by
  obtain ⟨op, more, hbytes, hop, -⟩ := decode_ok h
  have hhead : op = s.readByte s.pc := by
    have := bytesToTheTop_head? s
    rw [hbytes] at this
    exact Option.some.inj this
  have hfetch : s.fetchBytes = encode i ++ [] := by
    rw [State.fetchBytes, State.bytesFrom_pc_eq_take, ← hhead, fetchLength_of_lookup hop, ← encode_length,
      eq_encode_of_decode h, List.take_left', List.append_nil]
    rfl
  rw [State.fetch, hfetch, decode_encode]

/-- Where memory ends within an instruction, the first operand byte that is not there is the one at address 256. -/
theorem State.fetch_of_operands_beyond {s : State} {m : Mnemonic} (hm : lookup (s.readByte s.pc) = some m)
    (h : 255 < s.pc.toNat + m.nops) : s.fetch = .error (.memBoundsFault 256 s.pc) := by
  have hpc := s.pc.isLt
  have hlen := s.bytesFrom_length (s.pc.toNat + 1) m.nops
  have hend : s.pc.toNat + ((s.bytesFrom (s.pc.toNat + 1) m.nops).length + 1) = 256 := by omega
  rw [State.fetch, State.fetchBytes_of_lookup_some hm, decode_of_lookup_some hm,
    decodeOperands_of_short (by omega)]
  simp only [fetchFault, hend]
  rfl

/-- A fetch never raises AluDispatchFault (60_exceptions.md R182). -/
theorem State.fetch_ne_aluDispatchFault {s : State} {e : FaultRecord} (h : s.fetch = .error e) :
    e ≠ .aluDispatchFault := by
  unfold State.fetch at h
  split at h
  · cases h
  · rename_i d _
    cases h
    cases d <;> exact FaultRecord.noConfusion

/-! ## The step -/

theorem step_of_fetch_ok {s : State} {i : Instr} (hrun : s.run = .running) (h : s.fetch = .ok i) :
    step s = exec i s := by
  simp only [step, hrun, h]

/-- A running core has a next state: that of the instruction it fetched, or the fault of the fetch. -/
theorem step_of_running {s : State} (hrun : s.run = .running) : ∃ t, step s = .next t := by
  cases hf : s.fetch with
  | ok i => exact step_of_fetch_ok hrun hf ▸ exec_next i s
  | error e => exact ⟨_, step_of_fetch_error hrun hf⟩

/-! ## Runs under fuel -/

/-- Fuel may be spent in two parts. -/
theorem runFuel_add (n k : Nat) (s : State) : runFuel (n + k) s = runFuel k (runFuel n s) := by
  induction n generalizing s with
  | zero => rw [Nat.zero_add, runFuel_zero]
  | succ n ih =>
    rw [Nat.succ_add]
    by_cases hrun : s.run = .running
    · obtain ⟨t, ht⟩ := step_of_running hrun
      rw [runFuel_of_next n ht, ← ih, runFuel_of_next (n + k) ht]
    · simp only [runFuel_of_terminal _ hrun]

/-- A run under fuel takes as many steps as there is fuel, or fewer when it ends before. -/
theorem runFuel_stepsIn (n : Nat) (s : State) :
    ∃ k, k ≤ n ∧ StepsIn k s (runFuel n s) ∧ ((runFuel n s).run = .running → k = n) := by
  induction n generalizing s with
  | zero => exact ⟨0, le_refl 0, .zero s, fun _ => rfl⟩
  | succ n ih =>
    by_cases hrun : s.run = .running
    · obtain ⟨t, ht⟩ := step_of_running hrun
      obtain ⟨k, hk, hsteps, hfull⟩ := ih t
      rw [runFuel_of_next n ht]
      exact ⟨k + 1, Nat.succ_le_succ hk, .succ ht hsteps, fun h => congrArg (· + 1) (hfull h)⟩
    · rw [runFuel_of_terminal _ hrun]
      exact ⟨0, Nat.zero_le _, .zero s, fun h => absurd h hrun⟩

end Sys2Proof.Machine

namespace Sys2Proof.Proofs

open Sys2Proof.Machine Sys2Proof.Claims

/-- Settles O7: the fetch reads exactly the encoding of the instruction that the bytes to the top decode to. -/
theorem stepRunsTheDecodedInstruction : Obligations.StepRunsTheDecodedInstruction :=
  fun _ _ _ hrun h => step_of_fetch_ok hrun (State.fetch_of_decode h)

/-- Settles O9: the missing byte of the fetch is at address 256, and a fault of the fetch is all its step does. -/
theorem operandByteBeyondMemoryFaults : Obligations.OperandByteBeyondMemoryFaults :=
  fun _ _ hrun hm h => step_of_fetch_error hrun (State.fetch_of_operands_beyond hm h)

/-- Settles O11: the two terminal arms of the step, and that no step means no run but the empty one. -/
theorem terminalStatesTakeNoStep : Obligations.TerminalStatesTakeNoStep := by
  refine fun s => ⟨fun h => ?_, fun h => ?_, fun h _ _ => Steps.eq_of_terminal h⟩
  · simp only [step, h]
  · simp only [step, h]

/-- Settles O12: every instruction answers a next state, and so does a fault of the fetch. -/
theorem runningCoreAlwaysSteps : Obligations.RunningCoreAlwaysSteps := fun _ => step_of_running

/-- Settles O16: the counted run gives the steps, and adding fuel to a run that has ended adds none. -/
theorem fuelledRunFollowsTheSteps : Obligations.FuelledRunFollowsTheSteps := by
  intro n s
  have hcounted := runFuel_stepsIn n s
  refine ⟨?_, hcounted, fun _ => runFuel_of_next n, fun hended k => ?_⟩
  · obtain ⟨k, -, hsteps, -⟩ := hcounted
    exact hsteps.steps
  · rw [runFuel_add, runFuel_of_terminal k hended]

end Sys2Proof.Proofs
end

section
/-! What a step can do to each part of the state, read off the effects of `exec`: `run` and `err`, `pc`, `sp`, `fl`, the
output, memory and the general registers; and from these the invariant of 10_state.md R36. -/

namespace Sys2Proof.Machine

open Sys2Proof.Claims

/-- An operand that passes its check names the register with its number. -/
theorem regOperand_value {v : Byte} {s : State} {j : Fin Config.ngpr} (h : regOperand v s = .ok j) :
    ∃ hv : v.toNat < Config.ngpr, j = ⟨v.toNat, hv⟩ := by
  rcases regOperand_cases v s with ⟨hv, hok⟩ | ⟨-, herr⟩
  · exact ⟨hv, Except.ok.inj (h.symm.trans hok)⟩
  · rw [herr] at h
    cases h

/-- A register that the operand byte does not name is another one. -/
theorem reg_ne_of_regOperand {s : State} {a : Byte} {j r : Fin Config.ngpr} (ha : regOperand a s = .ok j)
    (hr : some a ≠ some (BitVec.ofNat 8 r.val)) : r ≠ j := by
  rintro rfl
  obtain ⟨_, rfl⟩ := regOperand_value ha
  exact hr (by rw [BitVec.ofNat_toNat, BitVec.setWidth_eq])

/-- A pop that finds a value moves `sp` one up, without wrapping. -/
theorem popAt_sp_toNat {s : State} {d : Byte} (hd : popAddress s = .ok d) :
    s.sp.toNat < 0xF4 ∧ (s.popAt d).sp.toNat = s.sp.toNat + 1 := by
  obtain ⟨rfl, hlt⟩ := popAddress_value hd
  refine ⟨hlt, ?_⟩
  rw [State.popAt_sp, BitVec.toNat_ofNat]
  omega

/-- CMP writes one of three flag bytes (10_state.md R27). -/
theorem compareFlags_cases (x y : Byte) :
    compareFlags x y = 0x01 ∨ compareFlags x y = 0x02 ∨ compareFlags x y = 0x04 := by
  unfold compareFlags
  split
  · exact .inl rfl
  split
  · exact .inr (.inr rfl)
  · exact .inr (.inl rfl)

/-! ## The instructions of each shape -/

theorem BinaryOp.length {i : Instr} {f : Byte → Byte → Byte} {a b : Byte} (op : BinaryOp i f a b) :
    i.mnemonic.length = 3 := by
  cases op <;> rfl

theorem BinaryOp.destination {i : Instr} {f : Byte → Byte → Byte} {a b : Byte} (op : BinaryOp i f a b) :
    Claims.destination i = some a := by
  cases op <;> rfl

theorem UnaryOp.length {i : Instr} {f : Byte → Byte} {a : Byte} (op : UnaryOp i f a) : i.mnemonic.length = 2 := by
  cases op <;> rfl

theorem UnaryOp.destination {i : Instr} {f : Byte → Byte} {a : Byte} (op : UnaryOp i f a) :
    Claims.destination i = some a := by
  cases op <;> rfl

theorem BranchOp.ownsPc {s : State} {i : Instr} {taken : Bool} {a : Byte} (op : BranchOp s i taken a) :
    i.mnemonic.ownsPc = true := by
  cases op <;> rfl

/-! ## `run` and `err` -/

theorem FaultCause.ne_aluDispatchFault {s : State} {i : Instr} {e : FaultRecord} (h : FaultCause s i e) :
    e ≠ .aluDispatchFault := by
  cases h <;> exact FaultRecord.noConfusion

section
variable {s t : State} {i : Instr} (h : Effect s i t)
include h

/-- An instruction faults, or is HLT and halts, or leaves `run` as it was; only a fault writes `err`. -/
theorem Effect.run_cases : (∃ e, FaultCause s i e ∧ t = s.raise e) ∨ (i = .hlt ∧ t.run = .halted ∧ t.err = s.err) ∨
    (i ≠ .hlt ∧ t.run = s.run ∧ t.err = s.err) := by
  cases h with
  | raise cause => exact .inl ⟨_, cause, rfl⟩
  | hlt _ => exact .inr (.inl ⟨rfl, rfl, rfl⟩)
  | binary op _ _ _ | unary op _ _ =>
    refine .inr (.inr ⟨fun hi => ?_, rfl, rfl⟩)
    subst hi
    cases op
  | taken op _ | untaken op _ _ =>
    refine .inr (.inr ⟨fun hi => ?_, rfl, rfl⟩)
    subst hi
    cases op.ownsPc
  | _ => exact .inr (.inr ⟨Instr.noConfusion, rfl, rfl⟩)

/-- A running instruction that ends FAULTED has raised. -/
theorem Effect.raised_of_faulted (hrun : s.run = .running) (hfault : t.run = .faulted) :
    ∃ e, FaultCause s i e ∧ t = s.raise e := by
  rcases h.run_cases with hraise | ⟨-, hhalt, -⟩ | ⟨-, hkept, -⟩
  · exact hraise
  · rw [hfault] at hhalt
    cases hhalt
  · rw [hfault, hrun] at hkept
    cases hkept

/-- With no record before it, an instruction leaves none exactly when it does not fault. -/
theorem Effect.err_none_iff (hrun : s.run = .running) (herr : s.err = none) : t.err = none ↔ t.run ≠ .faulted := by
  rcases h.run_cases with ⟨e, -, rfl⟩ | ⟨-, hhalt, hkept⟩ | ⟨-, hkeep, hkept⟩
  · simp
  · simp [hhalt, hkept, herr]
  · simp [hkeep, hkept, herr, hrun]

theorem Effect.err_ne_aluDispatchFault (hs : s.err ≠ some .aluDispatchFault) : t.err ≠ some .aluDispatchFault := by
  rcases h.err_cases with hkept | ⟨e, cause, he⟩
  · rwa [hkept]
  · rw [he]
    exact fun hsome => cause.ne_aluDispatchFault (Option.some.inj hsome)

/-! ## `pc`, `sp`, `fl` and the output -/

/-- An instruction that does not fault and does not own `pc` moves it by its length (40 R95). -/
theorem Effect.pc_of_not_ownsPc (hrun : t.run ≠ .faulted) (hown : i.mnemonic.ownsPc = false) :
    t.pc.toNat = s.pc.toNat + i.mnemonic.length := by
  cases h with
  | raise _ => exact absurd rfl hrun
  | binary op _ _ hn =>
    rw [op.length]
    exact (successor_value hn).1
  | unary op _ hn =>
    rw [op.length]
    exact (successor_value hn).1
  | taken op _ | untaken op _ _ =>
    rw [op.ownsPc] at hown
    cases hown
  | call _ _ _ | ret _ | jmp _ => cases hown
  | div _ _ _ hn | ldi _ hn | prn _ hn | hlt hn | cmp _ _ hn | push _ _ hn | pop _ _ hn =>
    exact (successor_value hn).1

/-- Who moves `sp`, with the check each has passed: PUSH and CALL down, POP and RET up (10_state.md R26). -/
theorem Effect.sp_cases : t.sp = s.sp ∨
    (((∃ a, i = .push a) ∨ ∃ a, i = .call a) ∧ 1 ≤ s.sp.toNat ∧ t.sp.toNat = s.sp.toNat - 1) ∨
    (((∃ a, i = .pop a) ∨ i = .ret) ∧ s.sp.toNat < 0xF4 ∧ t.sp.toNat = s.sp.toNat + 1) := by
  cases h with
  | push _ hd _ => exact .inr (.inl ⟨.inl ⟨_, rfl⟩, pushAddress_value hd⟩)
  | call _ hd _ => exact .inr (.inl ⟨.inr ⟨_, rfl⟩, pushAddress_value hd⟩)
  | pop _ hd _ => exact .inr (.inr ⟨.inl ⟨_, rfl⟩, popAt_sp_toNat hd⟩)
  | ret hd => exact .inr (.inr ⟨.inr rfl, popAt_sp_toNat hd⟩)
  | _ => exact .inl rfl

theorem Effect.fl_cases : t.fl = s.fl ∨ t.fl = 0x01 ∨ t.fl = 0x02 ∨ t.fl = 0x04 := by
  cases h with
  | cmp _ _ _ => exact .inr (compareFlags_cases _ _)
  | _ => exact .inl rfl

/-- Only a PRN that completes adds to the output, and it adds its register (10_state.md R31). -/
theorem Effect.out_cases :
    t.out = s.out ∨ ∃ (a : Byte) (ha : a.toNat < 5), i = .prn a ∧ t.out = s.out ++ [s.reg ⟨a.toNat, ha⟩] := by
  cases h with
  | prn ha _ =>
    obtain ⟨hv, rfl⟩ := regOperand_value ha
    exact .inr ⟨_, hv, rfl, rfl⟩
  | _ => exact .inl rfl

/-! ## Memory and the general registers -/

theorem Effect.mem_wf (hm : s.mem.wf = true) : t.mem.wf = true := by
  cases h with
  | push _ _ _ | call _ _ _ => exact State.wf_pushAt hm _ _
  | _ => exact hm

/-- A byte of memory is kept, or it is the one at the push address of a PUSH or CALL (20_memory.md R52). -/
theorem Effect.readByte_cases (hm : s.mem.wf = true) (m : Byte) : t.readByte m = s.readByte m ∨
    (pushAddress s = .ok m ∧ ((∃ a, i = .push a) ∨ ∃ a, i = .call a)) := by
  cases h with
  | @push a d _ _ _ hd _ =>
    by_cases hmd : m = d
    · exact .inr ⟨hmd ▸ hd, .inl ⟨a, rfl⟩⟩
    · exact .inl ((State.pushAt_readByte hm _ _ m).trans (if_neg hmd))
  | @call a d _ _ _ hd _ =>
    by_cases hmd : m = d
    · exact .inr ⟨hmd ▸ hd, .inr ⟨a, rfl⟩⟩
    · exact .inl ((State.pushAt_readByte hm _ _ m).trans (if_neg hmd))
  | _ => exact .inl rfl

/-- Every general register that is not the destination keeps its value (10_state.md, the table after R24). -/
theorem Effect.reg_of_ne_destination {r : Fin Config.ngpr} (hr : destination i ≠ some (BitVec.ofNat 8 r.val)) :
    t.reg r = s.reg r := by
  cases h with
  | binary op ha _ _ =>
    rw [op.destination] at hr
    exact State.setReg_reg_other _ _ (reg_ne_of_regOperand ha hr)
  | unary op ha _ =>
    rw [op.destination] at hr
    exact State.setReg_reg_other _ _ (reg_ne_of_regOperand ha hr)
  | div ha _ _ _ | ldi ha _ => exact State.setReg_reg_other _ _ (reg_ne_of_regOperand ha hr)
  | pop ha _ _ => exact State.setReg_reg_other _ _ (reg_ne_of_regOperand ha hr)
  | _ => rfl

end

/-! ## A record before an instruction is read by nothing -/

/-- `err <- e`, for comparing an instruction from two states that differ in nothing else. -/
def State.withErr (s : State) (e : Option FaultRecord) : State := { s with err := e }

/-- Two chains whose first check is the same give states related by `g` when what follows it does. -/
theorem check_bind_map {α : Type} {g : State → State} {x : Except FaultRecord α}
    {f f' : α → Except FaultRecord State} (h : ∀ a, f' a = (f a).map g) : (x >>= f') = (x >>= f).map g := by
  cases x with
  | ok a => exact h a
  | error e => rfl

/-- When the commit only carries another record along, the completed steps differ in the record alone; a fault
overwrites it. -/
theorem complete_withErr {s t : State} {e : Option FaultRecord} {x y : Except FaultRecord State}
    (h : complete s x = .next t) (hy : y = x.map (State.withErr · e)) :
    ∃ u, complete (s.withErr e) y = .next u ∧ u.withErr none = t.withErr none := by
  subst hy
  rcases complete_cases h with rfl | ⟨f, rfl, rfl⟩
  · exact ⟨t.withErr e, rfl, rfl⟩
  · exact ⟨s.raise f, rfl, rfl⟩

theorem branchForm_withErr (taken : Bool) (a : Byte) (s : State) (e : Option FaultRecord) :
    branchForm taken a (s.withErr e) = (branchForm taken a s).map (State.withErr · e) :=
  check_bind_map fun _ =>
    match taken with
    | true => rfl
    | false => check_bind_map fun _ => rfl

/-- No instruction reads the error record (10_state.md R30). -/
theorem exec_withErr {i : Instr} {s t : State} (e : Option FaultRecord) (h : exec i s = .next t) :
    ∃ u, exec i (s.withErr e) = .next u ∧ u.withErr none = t.withErr none := by
  cases i with
  | hlt | ret | jmp _ => exact complete_withErr h (check_bind_map fun _ => rfl)
  | prn _ | ldi _ _ | inc _ | dec _ | not _ =>
    exact complete_withErr h (check_bind_map fun _ => check_bind_map fun _ => rfl)
  | jeq a => exact complete_withErr h (branchForm_withErr s.flagEqual a s e)
  | jne a => exact complete_withErr h (branchForm_withErr (!s.flagEqual) a s e)
  | push _ | pop _ | call _ | cmp _ _ | add _ _ | sub _ _ | mul _ _ | and _ _ | or _ _ | xor _ _ | shl _ _ | shr _ _ =>
    exact complete_withErr h (check_bind_map fun _ => check_bind_map fun _ => check_bind_map fun _ => rfl)
  | div _ _ =>
    exact complete_withErr h (check_bind_map fun _ => check_bind_map fun _ => check_bind_map fun _ =>
      check_bind_map fun _ => rfl)

/-! ## Runs without a compare -/

/-- Along a run with no CMP `fl` keeps its value (42 R133). -/
theorem Steps.fl_of_no_cmp {s t : State} (h : Steps (fun u => u.nextMnemonic ≠ some .cmp) s t) : t.fl = s.fl := by
  induction h with
  | refl _ => rfl
  | step holds taken _ ih =>
    obtain ⟨hrun, ⟨i, hf, -⟩ | ⟨e, -, rfl⟩⟩ := step_next taken
    · have hcmp : ∀ a b, i ≠ .cmp a b := by
        rintro a b rfl
        exact holds (State.nextMnemonic_of_fetch hf)
      exact ih.trans (exec_fl hcmp ((step_of_fetch_ok hrun hf).symm.trans taken))
    · exact ih

end Sys2Proof.Machine

namespace Sys2Proof

open Sys2Proof.Machine

/-! ## The invariant -/

theorem inv_reset : Inv State.reset := ⟨State.reset_mem_wf, by decide, .inl rfl, by decide, by decide⟩

/-- Any fault but AluDispatchFault, which nothing raises, keeps the invariant. -/
theorem Inv.raise {s : State} (h : Inv s) {e : FaultRecord} (he : e ≠ .aluDispatchFault) : Inv (s.raise e) where
  memory := h.memory
  stack := h.stack
  flags := h.flags
  error := by simp
  dispatch := fun hsome => he (Option.some.inj hsome)

theorem Inv.of_effect {s t : State} {i : Instr} (h : Inv s) (hrun : s.run = .running) (heff : Effect s i t) : Inv t where
  memory := heff.mem_wf h.memory
  stack := by
    have hs := h.stack
    rcases heff.sp_cases with hsp | ⟨-, -, hsp⟩ | ⟨-, hlt, hsp⟩
    · rwa [hsp]
    · omega
    · omega
  flags := by
    rcases heff.fl_cases with hfl | hfl
    · rw [hfl]
      exact h.flags
    · exact .inr hfl
  error := heff.err_none_iff hrun (h.error.2 (by simp [hrun]))
  dispatch := heff.err_ne_aluDispatchFault h.dispatch

theorem Inv.of_step {s t : State} (h : Inv s) (hstep : step s = .next t) : Inv t := by
  obtain ⟨hrun, ⟨i, -, heff⟩ | ⟨e, hf, rfl⟩⟩ := step_next hstep
  · exact h.of_effect hrun heff
  · exact h.raise (State.fetch_ne_aluDispatchFault hf)

end Sys2Proof

namespace Sys2Proof.Proofs

open Sys2Proof.Machine Sys2Proof.Claims

/-- Settles O17: every field of the reset state. -/
theorem invariantHoldsAtReset : Obligations.InvariantHoldsAtReset := inv_reset

/-- Settles O18: a step executes an instruction or takes the fault of its fetch, and either keeps each clause. -/
theorem invariantKeptByEveryStep : Obligations.InvariantKeptByEveryStep := fun _ _ => Inv.of_step

/-- Settles O13: a fault of the fetch is a raise, and a running instruction ends FAULTED only by raising. -/
theorem faultingStepChangesOnlyRunAndError : Obligations.FaultingStepChangesOnlyRunAndError := by
  intro s t hrun hstep hfault
  obtain ⟨-, ⟨i, -, heff⟩ | ⟨e, hf, rfl⟩⟩ := step_next hstep
  · obtain ⟨e, cause, rfl⟩ := heff.raised_of_faulted hrun hfault
    exact ⟨e, rfl, cause.ne_aluDispatchFault⟩
  · exact ⟨e, rfl, State.fetch_ne_aluDispatchFault hf⟩

/-- Settles O14: the instruction fetched is of the selected row, and its successor does not wrap. -/
theorem completedStepAdvancesPc : Obligations.CompletedStepAdvancesPc := by
  intro s t m hrun hstep hok hm hown
  obtain ⟨-, ⟨i, hf, heff⟩ | ⟨e, -, rfl⟩⟩ := step_next hstep
  · obtain rfl : m = i.mnemonic := Option.some.inj (hm.symm.trans (State.nextMnemonic_of_fetch hf))
    exact heff.pc_of_not_ownsPc hok hown
  · exact absurd rfl hok

/-- The core that holds `JMP R0` at address 0, with R0 at 0: it jumps to itself. -/
def spinning : State := { State.reset with mem := [(0, 0x54)] }

theorem step_spinning : step spinning = .next spinning := rfl

theorem runFuel_spinning (n : Nat) : runFuel n spinning = spinning := by
  induction n with
  | zero => rfl
  | succ n ih => rw [runFuel_of_next n step_spinning, ih]

/-- HLT is the one instruction of its row. -/
theorem mnemonic_eq_hlt {i : Instr} : i.mnemonic = .hlt ↔ i = .hlt := by
  cases i <;> simp [Instr.mnemonic]

/-- Settles O15: only HLT writes HALTED and only a raise writes FAULTED; a jump to itself never ends. -/
theorem runEndsOnlyByHltOrFault : Obligations.RunEndsOnlyByHltOrFault := by
  refine ⟨fun s t hrun hstep => ?_, spinning, ⟨by decide, by decide, .inl rfl, by decide, by decide⟩, rfl,
    runFuel_spinning⟩
  obtain ⟨-, ⟨i, hf, heff⟩ | ⟨e, -, rfl⟩⟩ := step_next hstep
  · rw [State.nextMnemonic_of_fetch hf]
    rcases heff.run_cases with ⟨e, -, rfl⟩ | ⟨rfl, hhalt, -⟩ | ⟨hi, hkept, -⟩
    · simp
    · simp [hhalt, Instr.mnemonic]
    · simp [hkept, hrun, mnemonic_eq_hlt, hi]
  · simp

/-- Settles O19: of all effects only PRN's adds to the output. -/
theorem outputOnlyGrowsByPrn : Obligations.OutputOnlyGrowsByPrn := fun _ _ _ h => (exec_effect h).out_cases

/-- Settles O20: a record comes with a raise, no step follows one, and a record found before an instruction is carried
along or overwritten. -/
theorem errorRecordIsWrittenOnce : Obligations.ErrorRecordIsWrittenOnce := by
  refine ⟨rfl, fun s t hrun herr hstep => ?_, fun P s t hfault hsteps => ?_, fun i s t e h => exec_withErr e h⟩
  · obtain ⟨-, ⟨i, -, heff⟩ | ⟨e, -, rfl⟩⟩ := step_next hstep
    · exact heff.err_none_iff hrun herr
    · simp
  · rw [hsteps.eq_of_terminal (by simp [hfault])]

/-- Settles O22: by induction on the run, each step of which executes another instruction or faults. -/
theorem flagsPersistUntilTheNextCompare : Obligations.FlagsPersistUntilTheNextCompare := fun _ _ => Steps.fl_of_no_cmp

/-- Settles O24: the four stack instructions, each with the check it has passed. -/
theorem stackPointerMovesByOne : Obligations.StackPointerMovesByOne := fun _ _ _ h => (exec_effect h).sp_cases

/-- Settles O25: a byte that changed is the one at the push address of a PUSH or CALL. -/
theorem memoryChangesOnlyAtThePushAddress : Obligations.MemoryChangesOnlyAtThePushAddress := by
  refine fun i s t hm h => ⟨fun hpush hcall m => ?_, fun m hne => ?_⟩
  · rcases (exec_effect h).readByte_cases hm m with hkept | ⟨-, ⟨a, rfl⟩ | ⟨a, rfl⟩⟩
    · exact hkept
    · exact absurd rfl (hpush a)
    · exact absurd rfl (hcall a)
  · rcases (exec_effect h).readByte_cases hm m with hkept | ⟨hd, -⟩
    · exact hkept
    · exact absurd hd hne

/-- Settles O26: every effect that writes a general register writes the destination. -/
theorem onlyTheDestinationRegisterChanges : Obligations.OnlyTheDestinationRegisterChanges :=
  fun _ _ _ h _ hr => (exec_effect h).reg_of_ne_destination hr

end Sys2Proof.Proofs
end

section
/-! The checks of an instruction (40 R94, 60_exceptions.md R187): the next state of each instruction whose checks pass,
the fault of each check that fails, and that nothing else decides whether an instruction completes. -/

namespace Sys2Proof.Machine

open Sys2Proof.Claims

/-! ## The instructions whose checks pass -/

section
variable {s : State} {a : Byte} (ha : a.toNat < Config.ngpr)

theorem exec_hlt_completes (hpc : s.pc.toNat + 1 < Config.memSize) :
    exec .hlt s = .next (s.halt.setPc (BitVec.ofNat 8 (s.pc.toNat + 1))) := by
  simp only [exec, execHlt, successor_ok hpc, check_ok_bind, complete_pure]

theorem exec_ldi_completes (imm : Byte) (hpc : s.pc.toNat + 3 < Config.memSize) :
    exec (.ldi a imm) s = .next ((s.setReg ⟨a.toNat, ha⟩ imm).setPc (BitVec.ofNat 8 (s.pc.toNat + 3))) := by
  simp only [exec, execLdi, regOperand_ok s ha, successor_ok hpc, check_ok_bind, complete_pure]

theorem exec_prn_completes (hpc : s.pc.toNat + 2 < Config.memSize) :
    exec (.prn a) s = .next ((s.print (s.reg ⟨a.toNat, ha⟩)).setPc (BitVec.ofNat 8 (s.pc.toNat + 2))) := by
  simp only [exec, execPrn, regOperand_ok s ha, successor_ok hpc, check_ok_bind, complete_pure]

theorem exec_cmp_completes {b : Byte} (hb : b.toNat < Config.ngpr) (hpc : s.pc.toNat + 3 < Config.memSize) :
    exec (.cmp a b) s = .next ((s.setFl (compareFlags (s.reg ⟨a.toNat, ha⟩) (s.reg ⟨b.toNat, hb⟩))).setPc
      (BitVec.ofNat 8 (s.pc.toNat + 3))) := by
  simp only [exec, execCmp, regOperand_ok s ha, regOperand_ok s hb, successor_ok hpc, check_ok_bind, complete_pure]

theorem exec_div_completes {b : Byte} (hb : b.toNat < Config.ngpr) (h0 : s.reg ⟨b.toNat, hb⟩ ≠ 0)
    (hpc : s.pc.toNat + 3 < Config.memSize) :
    exec (.div a b) s = .next ((s.setReg ⟨a.toNat, ha⟩ (Alu.div (s.reg ⟨a.toNat, ha⟩) (s.reg ⟨b.toNat, hb⟩))).setPc
      (BitVec.ofNat 8 (s.pc.toNat + 3))) := by
  simp only [exec, execDiv, regOperand_ok s ha, regOperand_ok s hb, nonzeroDivisor, if_neg h0, successor_ok hpc,
    check_ok_bind, complete_pure]

theorem exec_push_completes (hsp : 1 ≤ s.sp.toNat) (hpc : s.pc.toNat + 2 < Config.memSize) :
    exec (.push a) s = .next ((s.pushAt (BitVec.ofNat 8 (s.sp.toNat - 1)) (s.reg ⟨a.toNat, ha⟩)).setPc
      (BitVec.ofNat 8 (s.pc.toNat + 2))) := by
  simp only [exec, execPush, regOperand_ok s ha, pushAddress_ok hsp, successor_ok hpc, check_ok_bind, complete_pure]

theorem exec_pop_completes (hsp : s.sp.toNat < 0xF4) (hpc : s.pc.toNat + 2 < Config.memSize) :
    exec (.pop a) s = .next (((s.popAt s.sp).setReg ⟨a.toNat, ha⟩ (s.readByte s.sp)).setPc
      (BitVec.ofNat 8 (s.pc.toNat + 2))) := by
  simp only [exec, execPop, regOperand_ok s ha, popAddress_ok hsp, successor_ok hpc, check_ok_bind, complete_pure]

theorem exec_call_completes (hsp : 1 ≤ s.sp.toNat) (hpc : s.pc.toNat + 2 < Config.memSize) :
    exec (.call a) s = .next ((s.pushAt (BitVec.ofNat 8 (s.sp.toNat - 1)) (BitVec.ofNat 8 (s.pc.toNat + 2))).setPc
      (s.reg ⟨a.toNat, ha⟩)) := by
  simp only [exec, execCall, regOperand_ok s ha, pushAddress_ok hsp, successor_ok hpc, check_ok_bind, complete_pure]

theorem exec_ret_completes (hsp : s.sp.toNat < 0xF4) :
    exec .ret s = .next ((s.popAt s.sp).setPc (s.readByte s.sp)) := by
  simp only [exec, execRet, popAddress_ok hsp, check_ok_bind, complete_pure]

theorem exec_jmp_completes : exec (.jmp a) s = .next (s.setPc (s.reg ⟨a.toNat, ha⟩)) := by
  simp only [exec, execJmp, regOperand_ok s ha, check_ok_bind, complete_pure]

/-! ### The conditional jumps, by whether they are taken -/

/-- The one test of `fl` (10_state.md R28), by the value of the Equal state. -/
theorem State.flagEqual_iff : s.flagEqual = true ↔ s.fl = 0x01 := decide_eq_true_iff

theorem State.flagEqual_false_iff : s.flagEqual = false ↔ s.fl ≠ 0x01 := decide_eq_false_iff_not

theorem BranchOp.exec_eq {i : Instr} {taken : Bool} (op : BranchOp s i taken a) :
    exec i s = complete s (branchForm taken a s) := by
  cases op <;> rfl

theorem BranchOp.exec_taken {i : Instr} (op : BranchOp s i true a) :
    exec i s = .next (s.setPc (s.reg ⟨a.toNat, ha⟩)) := by
  rw [op.exec_eq, branchForm, regOperand_ok s ha]
  rfl

theorem BranchOp.exec_untaken {i : Instr} (op : BranchOp s i false a) (ha : a.toNat < Config.ngpr)
    (hpc : s.pc.toNat + 2 < Config.memSize) : exec i s = .next (s.setPc (BitVec.ofNat 8 (s.pc.toNat + 2))) := by
  rw [op.exec_eq, branchForm, regOperand_ok s ha, successor_ok hpc]
  rfl

variable (a)

theorem BranchOp.jeq_taken (h : s.fl = 0x01) : BranchOp s (.jeq a) true a :=
  State.flagEqual_iff.2 h ▸ .jeq a

theorem BranchOp.jeq_untaken (h : s.fl ≠ 0x01) : BranchOp s (.jeq a) false a :=
  State.flagEqual_false_iff.2 h ▸ .jeq a

theorem BranchOp.jne_taken (h : s.fl ≠ 0x01) : BranchOp s (.jne a) true a :=
  have hflag : (!s.flagEqual) = true := congrArg not (State.flagEqual_false_iff.2 h)
  hflag ▸ .jne a

theorem BranchOp.jne_untaken (h : s.fl = 0x01) : BranchOp s (.jne a) false a :=
  have hflag : (!s.flagEqual) = false := congrArg not (State.flagEqual_iff.2 h)
  hflag ▸ .jne a

end

/-! ## The checks that fail, in their order -/

theorem check_bind_of_error {α β : Type} {x : Except FaultRecord α} {f : α → Except FaultRecord β} {e : FaultRecord}
    (h : x = .error e) : (x >>= f) = .error e := by
  rw [h, check_error_bind]

theorem check_bind_of_second_error {α β γ : Type} {x : Except FaultRecord α} {y : Except FaultRecord β}
    {f : α → β → Except FaultRecord γ} {a : α} {e : FaultRecord} (hx : x = .ok a) (hy : y = .error e) :
    (x >>= fun a => y >>= f a) = .error e := by
  rw [hx, hy, check_ok_bind, check_error_bind]

/-- The first register operand is checked before anything else. -/
theorem exec_of_first_operand_bad {i : Instr} {a : Byte} {more : List Byte} (s : State)
    (hops : i.regOperands = a :: more) (ha : ¬ a.toNat < Config.ngpr) :
    exec i s = .next (s.raise (.regIndexFault a s.pc)) := by
  cases i with
  | hlt | ret => cases hops
  | _ =>
    cases hops
    exact congrArg (complete s) (check_bind_of_error (regOperand_error s ha))

/-- The second register operand is checked right after the first. -/
theorem exec_of_second_operand_bad {i : Instr} {a b : Byte} (s : State) (hops : i.regOperands = [a, b])
    (ha : a.toNat < Config.ngpr) (hb : ¬ b.toNat < Config.ngpr) :
    exec i s = .next (s.raise (.regIndexFault b s.pc)) := by
  cases i with
  | add _ _ | sub _ _ | mul _ _ | div _ _ | cmp _ _ | and _ _ | or _ _ | xor _ _ | shl _ _ | shr _ _ =>
    cases hops
    exact congrArg (complete s) (check_bind_of_second_error (regOperand_ok s ha) (regOperand_error s hb))
  | _ => cases hops

section
variable {s : State}

theorem exec_ret_of_empty (hsp : ¬ s.sp.toNat < 0xF4) :
    exec .ret s = .next (s.raise (.stackUnderflowFault s.pc s.sp)) := by
  simp only [exec, execRet, popAddress_error hsp, check_error_bind, complete_error]

variable {a : Byte} (ha : a.toNat < Config.ngpr)
include ha

theorem exec_pop_of_empty (hsp : ¬ s.sp.toNat < 0xF4) :
    exec (.pop a) s = .next (s.raise (.stackUnderflowFault s.pc s.sp)) := by
  simp only [exec, execPop, regOperand_ok s ha, popAddress_error hsp, check_ok_bind, check_error_bind, complete_error]

theorem exec_push_of_no_room (hsp : s.sp = 0) : exec (.push a) s = .next (s.raise (.memBoundsFault (-1) s.pc)) := by
  simp only [exec, execPush, regOperand_ok s ha, pushAddress_error hsp, check_ok_bind, check_error_bind, complete_error]

theorem exec_call_of_no_room (hsp : s.sp = 0) : exec (.call a) s = .next (s.raise (.memBoundsFault (-1) s.pc)) := by
  simp only [exec, execCall, regOperand_ok s ha, pushAddress_error hsp, check_ok_bind, check_error_bind, complete_error]

end

/-! ## What the checks of an instruction are -/

/-- An instruction is well formed when each of its register operands names a register. -/
theorem wellFormed_iff {i : Instr} : i.wellFormed = true ↔ ∀ v ∈ i.regOperands, v.toNat < Config.ngpr := by
  simp [Instr.wellFormed, namesRegister]

theorem wellFormed_of_one_operand {i : Instr} {s : State} {a : Byte} {j : Fin Config.ngpr}
    (hops : i.regOperands = [a]) (ha : regOperand a s = .ok j) : i.wellFormed = true := by
  obtain ⟨hva, -⟩ := regOperand_value ha
  rw [wellFormed_iff, hops]
  simpa using hva

theorem wellFormed_of_two_operands {i : Instr} {s : State} {a b : Byte} {j k : Fin Config.ngpr}
    (hops : i.regOperands = [a, b]) (ha : regOperand a s = .ok j) (hb : regOperand b s = .ok k) :
    i.wellFormed = true := by
  obtain ⟨hva, -⟩ := regOperand_value ha
  obtain ⟨hvb, -⟩ := regOperand_value hb
  rw [wellFormed_iff, hops]
  simpa using ⟨hva, hvb⟩

/-- An instruction has no register operand, one, or two. -/
theorem regOperands_cases (i : Instr) :
    i.regOperands = [] ∨ (∃ a, i.regOperands = [a]) ∨ ∃ a b, i.regOperands = [a, b] := by
  cases i <;> simp [Instr.regOperands]

theorem BinaryOp.regOperands {i : Instr} {f : Byte → Byte → Byte} {a b : Byte} (op : BinaryOp i f a b) :
    i.regOperands = [a, b] := by
  cases op <;> rfl

theorem BinaryOp.ownCheckPasses {i : Instr} {f : Byte → Byte → Byte} {a b : Byte} (op : BinaryOp i f a b) (s : State) :
    OwnCheckPasses i s := by
  cases op <;> trivial

theorem UnaryOp.regOperands {i : Instr} {f : Byte → Byte} {a : Byte} (op : UnaryOp i f a) : i.regOperands = [a] := by
  cases op <;> rfl

theorem UnaryOp.ownCheckPasses {i : Instr} {f : Byte → Byte} {a : Byte} (op : UnaryOp i f a) (s : State) :
    OwnCheckPasses i s := by
  cases op <;> trivial

section
variable {s : State} {i : Instr} {taken : Bool} {a : Byte} (op : BranchOp s i taken a)
include op

theorem BranchOp.length : i.mnemonic.length = 2 := by cases op <;> rfl

theorem BranchOp.regOperands : i.regOperands = [a] := by cases op <;> rfl

theorem BranchOp.ownCheckPasses : OwnCheckPasses i s := by cases op <;> trivial

/-- A conditional jump needs its successor exactly when it is not taken. -/
theorem BranchOp.usesSuccessor_iff : UsesSuccessor i s ↔ taken = false := by
  cases op <;> simp [UsesSuccessor, State.flagEqual_iff, State.flagEqual_false_iff]

end

/-- An instruction raises, or all its checks have passed. -/
theorem Effect.raised_or_checks_pass {s t : State} {i : Instr} (h : Effect s i t) :
    (∃ e, FaultCause s i e ∧ t = s.raise e) ∨
      (i.wellFormed = true ∧ OwnCheckPasses i s ∧ (UsesSuccessor i s → s.pc.toNat + i.mnemonic.length ≤ 255)) := by
  have fits {len : Nat} {n : Byte} (hn : successor len s = .ok n) : s.pc.toNat + len ≤ 255 :=
    Nat.le_of_lt_succ (successor_value hn).2
  cases h with
  | raise cause => exact .inl ⟨_, cause, rfl⟩
  | binary op ha hb hn =>
    exact .inr ⟨wellFormed_of_two_operands op.regOperands ha hb, op.ownCheckPasses s, fun _ => op.length ▸ fits hn⟩
  | unary op ha hn =>
    exact .inr ⟨wellFormed_of_one_operand op.regOperands ha, op.ownCheckPasses s, fun _ => op.length ▸ fits hn⟩
  | taken op ha =>
    exact .inr ⟨wellFormed_of_one_operand op.regOperands ha, op.ownCheckPasses,
      fun huses => absurd (op.usesSuccessor_iff.1 huses) Bool.noConfusion⟩
  | untaken op ha hn =>
    exact .inr ⟨wellFormed_of_one_operand op.regOperands ha, op.ownCheckPasses, fun _ => op.length ▸ fits hn⟩
  | div ha hb nonzero hn =>
    exact .inr ⟨wellFormed_of_two_operands rfl ha hb, (Proofs.valueOf_eq_reg hb).trans_ne nonzero, fun _ => fits hn⟩
  | cmp ha hb hn => exact .inr ⟨wellFormed_of_two_operands rfl ha hb, trivial, fun _ => fits hn⟩
  | ldi ha hn | prn ha hn => exact .inr ⟨wellFormed_of_one_operand rfl ha, trivial, fun _ => fits hn⟩
  | hlt hn => exact .inr ⟨rfl, trivial, fun _ => fits hn⟩
  | push ha hd hn | call ha hd hn =>
    exact .inr ⟨wellFormed_of_one_operand rfl ha, (pushAddress_value hd).1, fun _ => fits hn⟩
  | pop ha hd hn => exact .inr ⟨wellFormed_of_one_operand rfl ha, (popAddress_value hd).2, fun _ => fits hn⟩
  | ret hd => exact .inr ⟨rfl, (popAddress_value hd).2, False.elim⟩
  | jmp ha => exact .inr ⟨wellFormed_of_one_operand rfl ha, trivial, False.elim⟩

section
variable {s : State} {i : Instr} (hwf : i.wellFormed = true) (hown : OwnCheckPasses i s)
include hwf hown

/-- With its operands and its own check in order, an instruction can only fault for want of its successor. -/
theorem FaultCause.eq_noSuccessor {e : FaultRecord} (cause : FaultCause s i e) :
    255 < s.pc.toNat + i.mnemonic.length ∧
      e = .memBoundsFault ((s.pc.toNat + i.mnemonic.length : Nat) : Int) s.pc := by
  cases cause with
  | register v operand high => exact absurd (wellFormed_iff.1 hwf v operand) high
  | divisor a b j named zero => exact absurd ((Proofs.valueOf_eq_reg named).trans zero) hown
  | noRoom _ a which zero =>
    have hroom : 1 ≤ s.sp.toNat := by rcases which with rfl | rfl <;> exact hown
    simp [zero] at hroom
  | emptyStack _ which empty =>
    have hvalue : s.sp.toNat < 0xF4 := by rcases which with ⟨a, rfl⟩ | rfl <;> exact hown
    exact absurd hvalue empty
  | noSuccessor _ beyond => exact ⟨Nat.not_lt.1 beyond, rfl⟩

/-- An instruction that needs no successor completes once its operands and its own check are in order. -/
theorem exec_of_not_usesSuccessor (hno : ¬ UsesSuccessor i s) : ∃ t, exec i s = .next t ∧ t.run = s.run := by
  rw [wellFormed_iff] at hwf
  cases i with
  | jmp a => exact ⟨_, exec_jmp_completes (hwf a (.head _)), rfl⟩
  | ret => exact ⟨_, exec_ret_completes hown, rfl⟩
  | jeq a => exact ⟨_, (BranchOp.jeq_taken a (not_not.1 hno)).exec_taken (hwf a (.head _)), rfl⟩
  | jne a => exact ⟨_, (BranchOp.jne_taken a hno).exec_taken (hwf a (.head _)), rfl⟩
  | _ => exact absurd trivial hno

end

end Sys2Proof.Machine

namespace Sys2Proof.Proofs

open Sys2Proof.Machine Sys2Proof.Claims

/-- Settles O27: an effect that is no fault has passed the checks; and where the checks pass, the one fault left is for
want of a successor, which an instruction that needs none does not take. -/
theorem instructionCompletesExactlyWhenItsChecksPass : Obligations.InstructionCompletesExactlyWhenItsChecksPass := by
  refine fun i s hrun => ⟨fun ⟨t, h, hok⟩ => ?_, fun ⟨hwf, hown, hsucc⟩ => ?_⟩
  · rcases (exec_effect h).raised_or_checks_pass with ⟨e, -, rfl⟩ | hchecks
    · exact absurd rfl hok
    · exact hchecks
  · by_cases huses : UsesSuccessor i s
    · obtain ⟨t, h⟩ := exec_next i s
      refine ⟨t, h, fun hfault => ?_⟩
      obtain ⟨e, cause, -⟩ := (exec_effect h).raised_of_faulted hrun hfault
      exact absurd (hsucc huses) (Nat.not_le.2 (cause.eq_noSuccessor hwf hown).1)
    · obtain ⟨t, h, hkept⟩ := exec_of_not_usesSuccessor hwf hown huses
      exact ⟨t, h, by simp [hkept, hrun]⟩

/-- Settles O28: the first operand is checked first, and the second, where there is one, right after it. -/
theorem registerIndexFaultComesFirst : Obligations.RegisterIndexFaultComesFirst := by
  intro i s v hfind
  rcases regOperands_cases i with hops | ⟨a, hops⟩ | ⟨a, b, hops⟩
  · simp [hops] at hfind
  · obtain ⟨ha, rfl⟩ : 5 ≤ a.toNat ∧ a = v := by simpa [hops] using hfind
    exact exec_of_first_operand_bad s hops (Nat.not_lt.2 ha)
  · by_cases ha : a.toNat < Config.ngpr
    · rw [hops, List.find?_cons_of_neg (by simpa using ha)] at hfind
      obtain ⟨hb, rfl⟩ : 5 ≤ b.toNat ∧ b = v := by simpa using hfind
      exact exec_of_second_operand_bad s hops ha (Nat.not_lt.2 hb)
    · rw [hops, List.find?_cons_of_pos (by simpa using ha)] at hfind
      obtain rfl : a = v := Option.some.inj hfind
      exact exec_of_first_operand_bad s hops ha

/-- Settles O30: the pop address comes right after the register operand. -/
theorem popOfAnEmptyStackFaults : Obligations.PopOfAnEmptyStackFaults :=
  fun _ hsp => ⟨fun _ ha => exec_pop_of_empty ha (Nat.not_lt.2 hsp), exec_ret_of_empty (Nat.not_lt.2 hsp)⟩

/-- Settles O31: the push address comes right after the register operand. -/
theorem pushBelowAddressZeroFaults : Obligations.PushBelowAddressZeroFaults :=
  fun _ _ hsp ha => ⟨exec_push_of_no_room ha hsp, exec_call_of_no_room ha hsp⟩

/-- Settles O32: the instruction raises, because it needs a successor that is not there, and for no other cause. -/
theorem successorBeyondMemoryFaults : Obligations.SuccessorBeyondMemoryFaults := by
  intro i s hwf hown huses hbeyond
  obtain ⟨t, h⟩ := exec_next i s
  rcases (exec_effect h).raised_or_checks_pass with ⟨e, cause, rfl⟩ | ⟨-, -, hfits⟩
  · rw [h, (cause.eq_noSuccessor hwf hown).2]
    rfl
  · exact absurd (hfits huses) (Nat.not_le.2 hbeyond)

end Sys2Proof.Proofs
end

section
/-! The result of each instruction with its frame (40 R98 to R100, 41, 42, 43, 44), where its checks pass. -/

namespace Sys2Proof.Machine

open Sys2Proof.Claims

/-! ## What the results share -/

/-- A number that fits a byte is the byte's value: a successor does not wrap. -/
theorem toNat_ofNat_of_fits {n : Nat} (h : n < Config.memSize) : (BitVec.ofNat 8 n).toNat = n :=
  Nat.mod_eq_of_lt h

section
variable {s : State} {a : Byte}

theorem onlyRegisterChanges_setReg_setPc (ha : a.toNat < Config.ngpr) (v n : Byte) :
    OnlyRegisterChanges a s ((s.setReg ⟨a.toNat, ha⟩ v).setPc n) :=
  ⟨fun _ hr => s.setReg_reg_other v fun h => hr (congrArg Fin.val h), rfl, rfl, rfl, rfl, rfl, fun _ => rfl⟩

theorem registersMemoryOutputKept_setPc (n : Byte) : RegistersMemoryOutputKept s (s.setPc n) :=
  ⟨fun _ => rfl, rfl, rfl, rfl, fun _ => rfl⟩

/-- An instruction whose commit is one register and the successor: its result and its frame. -/
theorem register_result {i : Instr} {v : Byte} {len : Nat} (ha : a.toNat < Config.ngpr)
    (hfit : s.pc.toNat + len < Config.memSize)
    (h : exec i s = .next ((s.setReg ⟨a.toNat, ha⟩ v).setPc (BitVec.ofNat 8 (s.pc.toNat + len)))) :
    ∃ t, exec i s = .next t ∧ t.reg ⟨a.toNat, ha⟩ = v ∧ t.pc.toNat = s.pc.toNat + len ∧ OnlyRegisterChanges a s t :=
  ⟨_, h, State.setReg_reg_same _ _ _, toNat_ofNat_of_fits hfit, onlyRegisterChanges_setReg_setPc ha _ _⟩

theorem BinaryOp.result {i : Instr} {f : Byte → Byte → Byte} {b : Byte} (op : BinaryOp i f a b)
    (ha : a.toNat < Config.ngpr) (hb : b.toNat < Config.ngpr) (hpc : s.pc.toNat ≤ 252) :
    ∃ t, exec i s = .next t ∧ t.reg ⟨a.toNat, ha⟩ = f (s.reg ⟨a.toNat, ha⟩) (s.reg ⟨b.toNat, hb⟩) ∧
      t.pc.toNat = s.pc.toNat + 3 ∧ OnlyRegisterChanges a s t := by
  have hfit : s.pc.toNat + 3 < 256 := by omega
  exact register_result ha hfit (op.exec_completes ha hb hfit)

theorem UnaryOp.result {i : Instr} {f : Byte → Byte} (op : UnaryOp i f a) (ha : a.toNat < Config.ngpr)
    (hpc : s.pc.toNat ≤ 253) :
    ∃ t, exec i s = .next t ∧ t.reg ⟨a.toNat, ha⟩ = f (s.reg ⟨a.toNat, ha⟩) ∧ t.pc.toNat = s.pc.toNat + 2 ∧
      OnlyRegisterChanges a s t := by
  have hfit : s.pc.toNat + 2 < 256 := by omega
  exact register_result ha hfit (op.exec_completes ha hfit)

theorem exec_div_result {b : Byte} (ha : a.toNat < Config.ngpr) (hb : b.toNat < Config.ngpr)
    (h0 : s.reg ⟨b.toNat, hb⟩ ≠ 0) (hpc : s.pc.toNat ≤ 252) :
    ∃ t, exec (.div a b) s = .next t ∧
      t.reg ⟨a.toNat, ha⟩ = Alu.div (s.reg ⟨a.toNat, ha⟩) (s.reg ⟨b.toNat, hb⟩) ∧
      t.pc.toNat = s.pc.toNat + 3 ∧ OnlyRegisterChanges a s t := by
  have hfit : s.pc.toNat + 3 < 256 := by omega
  exact register_result ha hfit (exec_div_completes ha hb h0 hfit)

/-- A taken jump changes `pc` alone. -/
theorem BranchOp.taken_result {i : Instr} (op : BranchOp s i true a) (ha : a.toNat < Config.ngpr) :
    ∃ t, exec i s = .next t ∧ t.pc = s.reg ⟨a.toNat, ha⟩ ∧ t.sp = s.sp ∧ t.fl = s.fl ∧
      RegistersMemoryOutputKept s t :=
  ⟨_, op.exec_taken ha, rfl, rfl, rfl, registersMemoryOutputKept_setPc _⟩

/-- An untaken jump changes `pc` alone. -/
theorem BranchOp.untaken_result {i : Instr} (op : BranchOp s i false a) (ha : a.toNat < Config.ngpr)
    (hpc : s.pc.toNat ≤ 253) :
    ∃ t, exec i s = .next t ∧ t.pc.toNat = s.pc.toNat + 2 ∧ t.sp = s.sp ∧ t.fl = s.fl ∧
      RegistersMemoryOutputKept s t := by
  have hfit : s.pc.toNat + 2 < 256 := by omega
  exact ⟨_, op.exec_untaken ha hfit, toNat_ofNat_of_fits hfit, rfl, rfl, registersMemoryOutputKept_setPc _⟩

end

/-! ## The flags byte of a compare (42 R130) -/

theorem compareFlags_of_eq {x y : Byte} (h : x = y) : compareFlags x y = 0x01 := if_pos h

theorem compareFlags_of_lt {x y : Byte} (h : x.toNat < y.toNat) : compareFlags x y = 0x04 := by
  have hne : x ≠ y := fun he => absurd (congrArg BitVec.toNat he) (Nat.ne_of_lt h)
  rw [compareFlags, if_neg hne, if_pos h]
  rfl

theorem compareFlags_of_gt {x y : Byte} (h : y.toNat < x.toNat) : compareFlags x y = 0x02 := by
  have hne : x ≠ y := fun he => absurd (congrArg BitVec.toNat he) (Nat.ne_of_gt h)
  rw [compareFlags, if_neg hne, if_neg (Nat.lt_asymm h)]
  rfl

end Sys2Proof.Machine

namespace Sys2Proof.Proofs

open Sys2Proof.Machine Sys2Proof.Claims

/-! ## LDI, PRN and HLT -/

/-- Settles O33: LDI's checks pass, and its commit is the register and the successor. -/
theorem ldiLoadsItsImmediate : Obligations.LdiLoadsItsImmediate := by
  intro s a imm ha hpc
  have hfit : s.pc.toNat + 3 < 256 := by omega
  exact register_result ha hfit (exec_ldi_completes ha imm hfit)

/-- Settles O34: PRN's checks pass, and its commit is the output and the successor. -/
theorem prnAppendsTheRegister : Obligations.PrnAppendsTheRegister := by
  intro s a ha hpc
  have hfit : s.pc.toNat + 2 < 256 := by omega
  exact ⟨_, exec_prn_completes ha hfit, rfl, toNat_ofNat_of_fits hfit, fun _ => rfl, rfl, rfl, rfl, rfl, fun _ => rfl⟩

/-- Settles O35: HLT's one check passes, and its commit is `run` and the successor. -/
theorem hltHaltsAndAdvances : Obligations.HltHaltsAndAdvances := by
  intro s hpc
  have hfit : s.pc.toNat + 1 < 256 := by omega
  exact ⟨_, exec_hlt_completes hfit, rfl, toNat_ofNat_of_fits hfit, fun _ => rfl, rfl, rfl, rfl, rfl, fun _ => rfl⟩

/-! ## Arithmetic -/

/-- Settles O36: the narrowed sum is the sum of bytes. -/
theorem addIsModulo256 : Obligations.AddIsModulo256 := by
  intro s a b ha hb hpc
  obtain ⟨t, h, hreg, hnext⟩ := (BinaryOp.add a b).result ha hb hpc
  refine ⟨t, h, ?_, hnext⟩
  rw [hreg, Alu.add_eq]
  exact BitVec.toNat_add _ _

/-- Settles O37: the narrowing keeps the remainder of the exact difference. -/
theorem subIsModulo256 : Obligations.SubIsModulo256 := by
  intro s a b ha hb hpc
  obtain ⟨t, h, hreg, hnext⟩ := (BinaryOp.sub a b).result ha hb hpc
  refine ⟨t, h, ?_, hnext⟩
  rw [hreg]
  exact trunc8_toNat _

/-- Settles O38: the narrowed product is the product of bytes. -/
theorem mulKeepsTheLowByte : Obligations.MulKeepsTheLowByte := by
  intro s a b ha hb hpc
  obtain ⟨t, h, hreg, hnext⟩ := (BinaryOp.mul a b).result ha hb hpc
  refine ⟨t, h, ?_, hnext⟩
  rw [hreg, Alu.mul_eq]
  exact BitVec.toNat_mul _ _

/-- Settles O39: the quotient of naturals fits a byte, and it is the floor. -/
theorem divIsTheFloorOfTheQuotient : Obligations.DivIsTheFloorOfTheQuotient := by
  intro s a b ha hb hpc h0
  obtain ⟨t, h, hreg, hnext⟩ := exec_div_result ha hb h0 hpc
  have hpos : 0 < (s.reg ⟨b.toNat, hb⟩).toNat := Nat.pos_of_ne_zero fun hz => h0 (BitVec.eq_of_toNat_eq hz)
  refine ⟨t, h, ?_, ?_, hnext⟩
  · rw [hreg, Alu.div_toNat]
    exact Nat.div_mul_le_self _ _
  · rw [hreg, Alu.div_toNat, ← Nat.div_lt_iff_lt_mul hpos]
    exact Nat.lt_succ_self _

/-- Settles O40: the narrowed results are one up and one down modulo 256. -/
theorem incAndDecMoveByOneModulo256 : Obligations.IncAndDecMoveByOneModulo256 := by
  intro s a ha hpc
  obtain ⟨t, h, hreg, hnext⟩ := (UnaryOp.inc a).result ha hpc
  obtain ⟨u, k, kreg, knext⟩ := (UnaryOp.dec a).result ha hpc
  refine ⟨⟨t, h, ?_, hnext⟩, u, k, ?_, knext⟩
  · have hinc : ((t.reg ⟨a.toNat, ha⟩).toNat : Int) = ((s.reg ⟨a.toNat, ha⟩).toNat + 1) % 256 :=
      hreg ▸ trunc8_toNat _
    omega
  · have hdec : ((u.reg ⟨a.toNat, ha⟩).toNat : Int) = ((s.reg ⟨a.toNat, ha⟩).toNat - 1) % 256 :=
      kreg ▸ trunc8_toNat _
    omega

/-! ## CMP, JEQ and JNE -/

/-- Settles O41: the three outcomes of the comparison. -/
theorem cmpSetsExactlyOneFlag : Obligations.CmpSetsExactlyOneFlag := by
  intro s a b ha hb hpc
  have hfit : s.pc.toNat + 3 < 256 := by omega
  exact ⟨_, exec_cmp_completes ha hb hfit, fun h => compareFlags_of_eq (BitVec.eq_of_toNat_eq h), compareFlags_of_lt,
    compareFlags_of_gt, toNat_ofNat_of_fits hfit, rfl, fun _ => rfl, rfl, rfl, rfl, fun _ => rfl⟩

/-- Settles O42: taken when `fl` is Equal. -/
theorem jeqJumpsWhenEqual : Obligations.JeqJumpsWhenEqual :=
  fun _ a ha => ⟨fun hfl => (BranchOp.jeq_taken a hfl).taken_result ha,
    fun hfl => (BranchOp.jeq_untaken a hfl).untaken_result ha⟩

/-- Settles O43: taken when `fl` is not Equal. -/
theorem jneJumpsWhenNotEqual : Obligations.JneJumpsWhenNotEqual :=
  fun _ a ha => ⟨fun hfl => (BranchOp.jne_taken a hfl).taken_result ha,
    fun hfl => (BranchOp.jne_untaken a hfl).untaken_result ha⟩

/-! ## Bitwise -/

/-- Settles O44: AND, OR and XOR are those of the bits. -/
theorem bitwiseResultsBitByBit : Obligations.BitwiseResultsBitByBit := by
  intro s a b ha hb hpc
  refine ⟨?_, ?_, ?_⟩
  · obtain ⟨t, h, hreg, hnext⟩ := (BinaryOp.and a b).result ha hb hpc
    exact ⟨t, h, fun k _ => by simp [hreg, Alu.and], hnext⟩
  · obtain ⟨t, h, hreg, hnext⟩ := (BinaryOp.or a b).result ha hb hpc
    exact ⟨t, h, fun k _ => by simp [hreg, Alu.or], hnext⟩
  · obtain ⟨t, h, hreg, hnext⟩ := (BinaryOp.xor a b).result ha hb hpc
    exact ⟨t, h, fun k _ => by simp [hreg, Alu.xor], hnext⟩

/-- Settles O45: the narrowed `255 - x` is the complement of every bit. -/
theorem notInvertsEveryBit : Obligations.NotInvertsEveryBit := by
  intro s a ha hpc
  obtain ⟨t, h, hreg, hnext⟩ := (UnaryOp.not a).result ha hpc
  exact ⟨t, h, fun k hk => by simp [hreg, Alu.not_eq, hk], hnext⟩

/-- Settles O46: the narrowed multiple of a power of two is the shift by the whole amount. -/
theorem shlMovesBitsUp : Obligations.ShlMovesBitsUp := by
  intro s a b ha hb hpc
  obtain ⟨t, h, hreg, hnext⟩ := (BinaryOp.shl a b).result ha hb hpc
  refine ⟨t, h, fun k hk => ?_, hnext⟩
  simp only [hreg, Alu.shl_eq, BitVec.getLsbD_shiftLeft, hk, decide_true, Bool.true_and, ← decide_not, Nat.not_lt]

/-- Settles O47: the quotient by a power of two is the shift by the whole amount. -/
theorem shrMovesBitsDown : Obligations.ShrMovesBitsDown := by
  intro s a b ha hb hpc
  obtain ⟨t, h, hreg, hnext⟩ := (BinaryOp.shr a b).result ha hb hpc
  exact ⟨t, h, fun k _ => by rw [hreg, Alu.shr_eq, BitVec.getLsbD_ushiftRight, Nat.add_comm], hnext⟩

/-! ## The stack and JMP -/

/-- Settles O48: PUSH stores at the push address, and a write is read back at its address alone. -/
theorem pushStoresAtTheNewStackPointer : Obligations.PushStoresAtTheNewStackPointer := by
  intro s a ha hm hsp hpc
  have hfit : s.pc.toNat + 2 < 256 := by omega
  have haddr := pushAddress_ok hsp
  exact ⟨_, _, exec_push_completes ha hsp hfit, haddr, (pushAddress_value haddr).2, rfl,
    (State.pushAt_readByte hm _ _ _).trans (if_pos rfl), fun m hne => (State.pushAt_readByte hm _ _ m).trans (if_neg hne),
    toNat_ofNat_of_fits hfit, fun _ => rfl, rfl, rfl, rfl, rfl⟩

/-- Settles O49: POP reads at the old `sp` and writes no memory. -/
theorem popLoadsFromTheStackPointer : Obligations.PopLoadsFromTheStackPointer := by
  intro s a ha hsp hpc
  have hfit : s.pc.toNat + 2 < 256 := by omega
  exact ⟨_, exec_pop_completes ha hsp hfit, State.setReg_reg_same _ _ _, (popAt_sp_toNat (popAddress_ok hsp)).2,
    toNat_ofNat_of_fits hfit, fun _ hr => State.setReg_reg_other _ _ fun h => hr (congrArg Fin.val h),
    rfl, rfl, rfl, rfl, fun _ => rfl⟩

/-- Settles O50: CALL stores its successor at the push address. -/
theorem callPushesTheReturnAddress : Obligations.CallPushesTheReturnAddress := by
  intro s a ha hm hsp hpc
  have hfit : s.pc.toNat + 2 < 256 := by omega
  have haddr := pushAddress_ok hsp
  refine ⟨_, _, exec_call_completes ha hsp hfit, haddr, (pushAddress_value haddr).2, rfl, ?_,
    fun m hne => (State.pushAt_readByte hm _ _ m).trans (if_neg hne), rfl, fun _ => rfl, rfl, rfl, rfl, rfl⟩
  rw [State.setPc_readByte, State.pushAt_readByte hm, if_pos rfl, toNat_ofNat_of_fits hfit]

/-- Settles O51: RET reads `pc` at the old `sp` and writes no memory. -/
theorem retJumpsToTheByteOnTop : Obligations.RetJumpsToTheByteOnTop :=
  fun _ hsp => ⟨_, exec_ret_completes hsp, rfl, (popAt_sp_toNat (popAddress_ok hsp)).2, rfl, fun _ => rfl, rfl, rfl, rfl,
    fun _ => rfl⟩

/-- Settles O52: JMP's one check passes, and its commit is `pc`. -/
theorem jmpGoesToTheRegister : Obligations.JmpGoesToTheRegister :=
  fun _ _ ha => ⟨_, exec_jmp_completes ha, rfl, rfl, rfl, registersMemoryOutputKept_setPc _⟩

end Sys2Proof.Proofs
end

section
/-! Laws over two instructions (41 R117, 43 R147, 44 R166), and the branch property over a run (42 R134): each composes
the results of the instructions. -/

namespace Sys2Proof.Machine

open Sys2Proof.Claims

/-! ## A result, for a next state already known -/

theorem BinaryOp.result_of_exec {s t : State} {i : Instr} {f : Byte → Byte → Byte} {a b : Byte} (op : BinaryOp i f a b)
    (ha : a.toNat < Config.ngpr) (hb : b.toNat < Config.ngpr) (hpc : s.pc.toNat ≤ 252) (h : exec i s = .next t) :
    t.reg ⟨a.toNat, ha⟩ = f (s.reg ⟨a.toNat, ha⟩) (s.reg ⟨b.toNat, hb⟩) ∧ t.pc.toNat = s.pc.toNat + 3 ∧
      OnlyRegisterChanges a s t := by
  obtain ⟨u, hu, hresult⟩ := op.result ha hb hpc
  obtain rfl : u = t := Host.Outcome.next.inj (hu.symm.trans h)
  exact hresult

theorem UnaryOp.result_of_exec {s t : State} {i : Instr} {f : Byte → Byte} {a : Byte} (op : UnaryOp i f a)
    (ha : a.toNat < Config.ngpr) (hpc : s.pc.toNat ≤ 253) (h : exec i s = .next t) :
    t.reg ⟨a.toNat, ha⟩ = f (s.reg ⟨a.toNat, ha⟩) ∧ t.pc.toNat = s.pc.toNat + 2 ∧ OnlyRegisterChanges a s t := by
  obtain ⟨u, hu, hresult⟩ := op.result ha hpc
  obtain rfl : u = t := Host.Outcome.next.inj (hu.symm.trans h)
  exact hresult

/-! ## Two read-modify-writes in turn -/

/-- Different operand bytes name different registers. -/
theorem register_ne {a b : Byte} (ha : a.toNat < Config.ngpr) (hb : b.toNat < Config.ngpr) (hab : a ≠ b) :
    (⟨a.toNat, ha⟩ : Fin Config.ngpr) ≠ ⟨b.toNat, hb⟩ :=
  fun he => hab (BitVec.eq_of_toNat_eq (Fin.mk.inj he))

/-- Two operations on the same register, the second undoing the first while the right operand stays, restore it. -/
theorem BinaryOp.restores {s t u : State} {i k : Instr} {f g : Byte → Byte → Byte} {a b : Byte} (op : BinaryOp i f a b)
    (op' : BinaryOp k g a b) (hinv : ∀ x y, g (f x y) y = x) (ha : a.toNat < Config.ngpr) (hab : a ≠ b)
    (hb : b.toNat < Config.ngpr) (hpc : s.pc.toNat ≤ 249) (h : exec i s = .next t) (h' : exec k t = .next u) :
    u.reg ⟨a.toNat, ha⟩ = s.reg ⟨a.toNat, ha⟩ := by
  obtain ⟨hreg, hnext, hother, -⟩ := op.result_of_exec ha hb (by omega) h
  obtain ⟨hreg', -⟩ := op'.result_of_exec ha hb (by omega) h'
  have hright : t.reg ⟨b.toNat, hb⟩ = s.reg ⟨b.toNat, hb⟩ := hother _ fun he => hab (BitVec.eq_of_toNat_eq he.symm)
  rw [hreg', hright, hreg, hinv]

theorem UnaryOp.restores {s t u : State} {i k : Instr} {f g : Byte → Byte} {a : Byte} (op : UnaryOp i f a)
    (op' : UnaryOp k g a) (hinv : ∀ x, g (f x) = x) (ha : a.toNat < Config.ngpr) (hpc : s.pc.toNat ≤ 251)
    (h : exec i s = .next t) (h' : exec k t = .next u) : u.reg ⟨a.toNat, ha⟩ = s.reg ⟨a.toNat, ha⟩ := by
  obtain ⟨hreg, hnext, -⟩ := op.result_of_exec ha (by omega) h
  obtain ⟨hreg', -⟩ := op'.result_of_exec ha (by omega) h'
  rw [hreg', hreg, hinv]

/-! ## The flags byte of a compare -/

/-- A compare writes the Equal state exactly for equal values. -/
theorem compareFlags_eq_one_iff {x y : Byte} : compareFlags x y = 0x01 ↔ x = y := by
  refine ⟨fun h => ?_, compareFlags_of_eq⟩
  rcases Nat.lt_trichotomy x.toNat y.toNat with hlt | heq | hgt
  · rw [compareFlags_of_lt hlt] at h
    exact absurd h (by decide)
  · exact BitVec.eq_of_toNat_eq heq
  · rw [compareFlags_of_gt hgt] at h
    exact absurd h (by decide)

/-! ## An untaken jump -/

/-- A byte's successor at distance 2 is its sum with 2. -/
theorem ofNat_toNat_add_two (x : Byte) : BitVec.ofNat 8 (x.toNat + 2) = x + 2 := by
  rw [BitVec.ofNat_add, BitVec.ofNat_toNat, BitVec.setWidth_eq]
  rfl

/-- An untaken jump goes to `pc + 2`. -/
theorem BranchOp.exec_untaken_add_two {t : State} {i : Instr} {d : Byte} (op : BranchOp t i false d) (hd : d.toNat < Config.ngpr)
    (hpc : t.pc.toNat ≤ 253) : exec i t = .next { t with pc := t.pc + 2 } := by
  have hfit : t.pc.toNat + 2 < 256 := by omega
  rw [op.exec_untaken hd hfit, ofNat_toNat_add_two]
  rfl

/-! ## Shifts and powers of two (43 R147) -/

/-- The powers of two that a byte can hold. -/
theorem toNat_ofNat_two_pow {n : Nat} (h : n ≤ 7) : (BitVec.ofNat 8 (2 ^ n)).toNat = 2 ^ n :=
  toNat_ofNat_of_fits (lt_of_le_of_lt (Nat.pow_le_pow_right (by decide) h) (by decide))

/-- A register that holds a power of two is a divisor. -/
theorem setReg_two_pow_ne_zero {s : State} {j : Fin Config.ngpr} {n : Nat} (h : n ≤ 7) :
    (s.setReg j (BitVec.ofNat 8 (2 ^ n))).reg j ≠ 0 := by
  rw [State.setReg_reg_same]
  intro h0
  have htwo := toNat_ofNat_two_pow h
  rw [h0] at htwo
  exact absurd htwo.symm (Nat.two_pow_pos n).ne'

theorem Alu.shr_eq_div (x : Byte) {y : Byte} (h : y.toNat ≤ 7) :
    Alu.shr x y = Alu.div x (BitVec.ofNat 8 (2 ^ y.toNat)) := by
  rw [Alu.shr, Alu.div, toNat_ofNat_two_pow h]

theorem Alu.shl_eq_mul (x : Byte) {y : Byte} (h : y.toNat ≤ 7) :
    Alu.shl x y = Alu.mul x (BitVec.ofNat 8 (2 ^ y.toNat)) := by
  rw [Alu.shl, Alu.mul, toNat_ofNat_two_pow h, Nat.cast_pow, Nat.cast_ofNat]

end Sys2Proof.Machine

namespace Sys2Proof.Proofs

open Sys2Proof.Machine Sys2Proof.Claims

/-- Settles O53: subtraction undoes addition, and decrement increment, in the bytes; and 1 is the unit of `*`. -/
theorem arithmeticIdentities : Obligations.ArithmeticIdentities := by
  refine ⟨fun s t u a b ha hab hb hpc h h' => ?_, fun s t a b ha hb hpc hone h => ?_, fun s t u a ha hpc h h' => ?_⟩
  · refine (BinaryOp.add a b).restores (.sub a b) (fun x y => ?_) ha hab hb hpc h h'
    rw [Alu.add_eq, Alu.sub_eq, BitVec.add_sub_cancel]
  · obtain ⟨hreg, -⟩ := (BinaryOp.mul a b).result_of_exec ha hb hpc h
    rw [hreg, hone, Alu.mul_eq]
    exact BitVec.mul_one _
  · refine (UnaryOp.inc a).restores (.dec a) (fun x => ?_) ha hpc h h'
    rw [Alu.inc_eq, Alu.dec_eq, BitVec.add_sub_cancel]

/-- Settles O54: NOT and XOR undo themselves; and a shift by `n` is DIV or MUL by the byte that holds `2^n`. -/
theorem bitwiseLaws : Obligations.BitwiseLaws := by
  refine ⟨fun s t u a ha hpc h h' => ?_, fun s t u a b ha hab hb hpc h h' => ?_,
    fun s t u a b ha hb hab hpc hn h h' => ?_, fun s t u a b ha hb hab hpc hn h h' => ?_⟩
  · refine (UnaryOp.not a).restores (.not a) (fun x => ?_) ha hpc h h'
    rw [Alu.not_eq, Alu.not_eq, BitVec.not_not]
  · refine (BinaryOp.xor a b).restores (.xor a b) (fun x y => ?_) ha hab hb hpc h h'
    rw [Alu.xor, Alu.xor, BitVec.xor_assoc, BitVec.xor_self, BitVec.xor_zero]
  · obtain ⟨hreg, -⟩ := (BinaryOp.shr a b).result_of_exec ha hb hpc h
    obtain ⟨u', hu', hreg', -⟩ := exec_div_result ha hb (setReg_two_pow_ne_zero hn) hpc
    obtain rfl : u' = u := Host.Outcome.next.inj (hu'.symm.trans h')
    rw [hreg, hreg', State.setReg_reg_same, State.setReg_reg_other _ _ (register_ne ha hb hab), Alu.shr_eq_div _ hn]
  · obtain ⟨hreg, -⟩ := (BinaryOp.shl a b).result_of_exec ha hb hpc h
    obtain ⟨hreg', -⟩ := (BinaryOp.mul a b).result_of_exec (s := s.setReg _ _) ha hb hpc h'
    rw [hreg, hreg', State.setReg_reg_same, State.setReg_reg_other _ _ (register_ne ha hb hab), Alu.shl_eq_mul _ hn]

/-- Settles O55: the POP finds the `sp` and the byte that the PUSH left. -/
theorem pushThenPopRoundTrips : Obligations.PushThenPopRoundTrips := by
  intro s a ha hm hlow hhigh hpc
  obtain ⟨t, addr, hpush, -, haddr, hsp, hstored, hkept, hnext, hregs, hfl, hrun, herr, hout⟩ :=
    pushStoresAtTheNewStackPointer s a ha hm hlow (by omega)
  subst hsp
  obtain ⟨u, hpop, hreg, hsp', hnext', hregs', hfl', hrun', herr', hout', hkept'⟩ :=
    popLoadsFromTheStackPointer t a ha (by omega) (by omega)
  refine ⟨t, u, hpush, hpop, fun r => ?_, BitVec.eq_of_toNat_eq (by omega), by omega, hfl'.trans hfl,
    hrun'.trans hrun, herr'.trans herr, hout'.trans hout, fun m => ?_⟩
  · by_cases hr : r = ⟨a.toNat, ha⟩
    · rw [hr, hreg, hstored]
    · rw [hregs' r fun h => hr (Fin.ext h), hregs]
  · rw [hkept' m]
    by_cases hmem : m = t.sp
    · rw [if_pos (by rw [hmem, haddr]), hmem, hstored]
    · rw [if_neg fun h => hmem (BitVec.eq_of_toNat_eq (h.trans haddr.symm)), hkept m hmem]

/-- Settles O56: RET reads the return address at the `sp` that the CALL left. -/
theorem callThenRetRoundTrips : Obligations.CallThenRetRoundTrips := by
  intro s t v a ha hm hlow hhigh hpc hcall hsp hbyte
  obtain ⟨t', addr, hcall', -, haddr, hsp', hstored, -⟩ :=
    callPushesTheReturnAddress s a ha hm hlow (by omega)
  obtain rfl : t' = t := Host.Outcome.next.inj (hcall'.symm.trans hcall)
  subst hsp'
  obtain ⟨u, hret, hnext, hspu, -⟩ := retJumpsToTheByteOnTop v (by rw [hsp]; omega)
  rw [hsp] at hspu
  refine ⟨u, hret, ?_, BitVec.eq_of_toNat_eq (by omega)⟩
  rw [hnext, hbyte, hstored]

/-- Settles O23: the compare writes Equal exactly for equal values, the run keeps `fl`, and the jumps test it. -/
theorem branchTestsTheMostRecentCompare : Obligations.BranchTestsTheMostRecentCompare := by
  intro s c t a b d ha hb hd hpc hcmp hsteps
  have hfit : s.pc.toNat + 3 < 256 := by omega
  have hfl : t.fl = compareFlags (s.reg ⟨a.toNat, ha⟩) (s.reg ⟨b.toNat, hb⟩) := by
    rw [hsteps.fl_of_no_cmp, ← Host.Outcome.next.inj ((exec_cmp_completes ha hb hfit).symm.trans hcmp)]
    rfl
  refine ⟨fun heq => ?_, fun hne => ?_⟩
  · have hequal : t.fl = 0x01 := hfl.trans (compareFlags_of_eq heq)
    exact ⟨(BranchOp.jeq_taken d hequal).exec_taken hd, (BranchOp.jne_untaken d hequal).exec_untaken_add_two hd⟩
  · have hunequal : t.fl ≠ 0x01 := by rw [hfl, Ne, compareFlags_eq_one_iff]; exact hne
    exact ⟨(BranchOp.jne_taken d hunequal).exec_taken hd, (BranchOp.jeq_untaken d hunequal).exec_untaken_add_two hd⟩

end Sys2Proof.Proofs
end

section
/-! Reset, the program load and the register file (70_reset_and_hazards.md R201 to R205, 10_state.md R20, R21). -/

namespace Sys2Proof.Machine

/-! ## The load -/

/-- A read after bytes were stored from an address upward: the byte stored there, or what was there before. -/
theorem State.storeBytes_read {s : State} (hm : s.mem.wf = true) {a : Nat} {bytes : List Byte}
    (h : a + bytes.length ≤ 256) (c : Nat) :
    (s.storeBytes a bytes).mem.read c = if a ≤ c then (bytes[c - a]?).getD (s.mem.read c) else s.mem.read c := by
  induction bytes generalizing s a with
  | nil => simp [State.storeBytes]
  | cons v rest ih =>
    rw [List.length_cons] at h
    have ha : a < Config.memSize := Nat.lt_of_lt_of_le (by omega : a < a + (rest.length + 1)) h
    rw [State.storeBytes, if_pos ha, ih (Memory.wf_write ha hm) (by omega)]
    simp only [Memory.read_write hm]
    rcases Nat.lt_trichotomy c a with hlt | rfl | hgt
    · rw [if_neg (by omega), if_neg (by omega), if_neg (by omega)]
    · rw [if_neg (by omega), if_pos rfl, if_pos (le_refl c), Nat.sub_self]
      rfl
    · have hshift : c - a = c - (a + 1) + 1 := by omega
      rw [if_pos (by omega), if_neg (by omega), if_pos (by omega), hshift, List.getElem?_cons_succ]

/-- The launch state of a program that fits: its bytes from address 0, and otherwise the reset state. -/
theorem launch_of_fits {bytes : List Byte} (h : bytes.length ≤ 256) :
    launch bytes = .ok (State.reset.storeBytes 0 bytes) :=
  if_pos h

theorem launch_of_too_long {bytes : List Byte} (h : 256 < bytes.length) : launch bytes = .error .programTooLong :=
  if_neg (Nat.not_le.2 h)

theorem launched_readByte {bytes : List Byte} (h : bytes.length ≤ 256) (a : Byte) :
    (State.reset.storeBytes 0 bytes).readByte a = (bytes[a.toNat]?).getD 0 := by
  rw [State.readByte, State.storeBytes_read State.reset_mem_wf (by omega), if_pos (Nat.zero_le _), Nat.sub_zero]
  rfl

/-! ## The register file, under every layout -/

/-- The cell of a reserved register holds that register and no other. -/
theorem ReservedLayout.regAt_cellOf (l : ReservedLayout) (r : ReservedReg) :
    ReservedLayout.regAt l (l.cellOf r) = some r := by
  cases l <;> cases r <;> rfl

theorem ReservedLayout.cellOf_bounds (l : ReservedLayout) (r : ReservedReg) : 5 ≤ l.cellOf r ∧ l.cellOf r ≤ 7 := by
  cases l <;> cases r <;> decide

theorem ReservedLayout.cellOf_injective (l : ReservedLayout) : Function.Injective l.cellOf := by
  intro r q h
  have hq := ReservedLayout.regAt_cellOf l q
  rw [← h, ReservedLayout.regAt_cellOf l r] at hq
  exact Option.some.inj hq

section
variable (s : State) (l : ReservedLayout)

theorem State.fileCell_general (r : Fin Config.ngpr) : s.fileCell l r.val = some (s.reg r) := dif_pos r.isLt

theorem State.fileCell_reserved (r : ReservedReg) : s.fileCell l (l.cellOf r) = some (s.reserved r) := by
  have hr : ¬ l.cellOf r < Config.ngpr := Nat.not_lt.2 (ReservedLayout.cellOf_bounds l r).1
  rw [State.fileCell, dif_neg hr, ReservedLayout.regAt_cellOf, Option.map_some]

theorem State.fileCell_beyond {c : Nat} (hc : 8 ≤ c) : s.fileCell l c = none := by
  have hg : ¬ c < Config.ngpr := Nat.not_lt.2 (le_trans (by decide) hc)
  have hnone : ReservedLayout.regAt l c = none := by
    refine List.find?_eq_none.2 fun r _ => ?_
    have hle := (ReservedLayout.cellOf_bounds l r).2
    have hne : l.cellOf r ≠ c := by omega
    simpa using hne
  rw [State.fileCell, dif_neg hg, hnone, Option.map_none]

end

end Sys2Proof.Machine

namespace Sys2Proof.Proofs

open Sys2Proof.Machine Sys2Proof.Claims

/-- Settles O57: the fields of the reset state, the registers being copies of one value. -/
theorem resetValues : Obligations.ResetValues := by
  refine ⟨rfl, rfl, State.reset_readByte, rfl, rfl, fun r => ?_, rfl, rfl⟩
  simp only [State.reset, State.reg, Fin.getElem_fin, Vector.getElem_replicate]
  rfl

/-- Settles O58: the load writes memory alone, byte by byte from address 0. -/
theorem launchLoadsTheProgram : Obligations.LaunchLoadsTheProgram := by
  refine fun bytes => ⟨fun h => ⟨_, launch_of_fits h, State.wf_storeBytes State.reset_mem_wf 0 bytes,
    launched_readByte h, ?_⟩, launch_of_too_long⟩
  obtain ⟨m, hm⟩ := State.reset.storeBytes_eq 0 bytes
  rw [hm]
  exact ⟨rfl, rfl, rfl, rfl, rfl, rfl, rfl⟩

/-- Settles O59: the cell of each register, general and reserved, and none beyond them. -/
theorem registerFileHasEightCells : Obligations.RegisterFileHasEightCells :=
  fun l s => ⟨s.fileCell_general l, s.fileCell_reserved l .pc, s.fileCell_reserved l .sp, s.fileCell_reserved l .fl,
    ReservedLayout.cellOf_bounds l, ReservedLayout.cellOf_injective l, fun _ => s.fileCell_beyond l⟩

end Sys2Proof.Proofs
end
